-- ==== Sys2Proof/Word.lean ====
section
/-! DEFINITION. The byte, the one data type of the LS-8 core, and its truncation (spec/00_scope.md R7). -/

namespace Sys2Proof

/-- R7: a byte is an unsigned integer from 0 to 255; every register, memory cell, opcode and operand is one. -/
abbrev Byte := BitVec 8

/-- R7: `trunc8(v)` is `v mod 256` for a natural number `v`. -/
def trunc8 (v : Nat) : Byte := BitVec.ofNat 8 v

end Sys2Proof
end

