-- ==== Sys2Proof/Config.lean ====
section
/-! DEFINITION. The implementation parameters of spec/00_scope.md R6. The two OPEN ones, GPR_RESET and
MEM_IMAGE, are arguments of `Machine.State.start` (Machine/Reset.lean); the values named here are only the ones
`Machine.State.reset` takes. The core has no free value: spec/40_fetch_decode_execute.md R77. -/

namespace Sys2Proof.Config

/-- `MEM_SIZE` (R6): memory cells, addresses 0 to 255. -/
abbrev memSize : Nat := 256

/-- `NREGS` (R6): general registers, indices 0 to 7. -/
abbrev nRegs : Nat := 8

/-- `SP_INDEX` (R6): the register used as stack pointer. -/
abbrev spIndex : Fin nRegs := 7

/-- `SP_RESET` (R6, spec/10_state.md R28). -/
abbrev spReset : Byte := 0xF4

/-- `PC_RESET` (R6, spec/10_state.md R28). -/
abbrev pcReset : Nat := 0

/-- `LOAD_BASE` (R6): the address of the first program byte. -/
abbrev loadBase : Nat := 0

/-- `MAX_ILEN` (R6): the longest instruction, in bytes. -/
abbrev maxIlen : Nat := 3

/-- `PC_W` and `ADDR_W` (R6): the width of the program counter and of a memory address at the blocks' ports. -/
abbrev addrWidth : Nat := 9

/-- The value `State.reset` gives each of R0 to R6 in place of the OPEN `GPR_RESET`: the spec's recommended
instantiation (spec/92_eei_decisions.md D8). DESIGN CHOICE, log 2; unsafe. -/
def gprResetDefault : Byte := 0x00

/-- What an address no memory entry lists reads as, and so what every cell holds in `State.reset` in place of the
OPEN `MEM_IMAGE`: the recommended fill (spec/92_eei_decisions.md D9). DESIGN CHOICE, log 3; unsafe. -/
def unlistedByte : Byte := 0x00

end Sys2Proof.Config
end

