-- ==== Sys2Proof/Machine/State.lean ====
section
/-! DEFINITION. The whole state of the core, the tuple at the head of spec/10_state.md, and the state after reset. -/

namespace Sys2Proof.Machine

/-- The five faults the core can raise, each with the information it records (spec/60_exceptions.md R120). The spec
describes the entry of every one of them (R130), so a fault is a NEXT state in which the fault record holds one of
these and the run state is FAULTED; no step answers `Host.Outcome.fault` (log 5; safe). -/
inductive Fault where
  /-- R121: raised by a memory read or write at an address above 255. Safe: the fault is the spec's own. -/
  | addressOutOfRange (addr : Nat)
  /-- R122: raised by a register read or write whose index is above 7. Safe: the fault is the spec's own. -/
  | invalidRegister (index : Byte)
  /-- R125: raised by the ALU for a selector that is no operation; no program raises it (spec/41_alu.md R93). Safe. -/
  | unsupportedOperation (selector : BitVec 3)
  /-- R124: raised by the ALU's DIV with divisor 0; no program raises it (spec/41_alu.md R93). Safe. -/
  | divisionByZero
  /-- R123: raised for an opcode that is none of the nine. Fatal by the spec's decision D3 (log 7). Safe. -/
  | unknownInstruction (opcode : Byte)
deriving DecidableEq, Repr

/-- Instructions without a meaning; every instruction of the table has one. -/
inductive Refusal where
  /-- Raised by an arm of `exec` whose instruction has no meaning yet. Safe. No arm raises it. -/
  | notModelled (mnemonic : String)
deriving DecidableEq, Repr

/-- R22: the run state. -/
inductive RunState where
  /-- The core executes one instruction after another. -/
  | running
  /-- The program ended by HLT. -/
  | halted
  /-- A fatal fault stopped the program. -/
  | faulted
deriving DecidableEq, Repr

/-- spec/20_memory.md R30: the 256 cells, as the list of those that do not hold `Config.unlistedByte`, addresses
strictly rising (`Memory.wf`, Machine/Ops.lean). -/
abbrev Memory := List Host.Cell

/-- The state of the machine (the tuple at the head of spec/10_state.md; "There is no other state"). -/
structure State where
  /-- R10: the registers R0 to R7; R7 is the stack pointer. -/
  x : Vector Byte Config.nRegs
  /-- R15: the program counter, a natural number from 0 to 256 (log 1). -/
  pc : Nat
  /-- R30: memory. -/
  mem : Memory
  /-- R22: the run state. -/
  runState : RunState
  /-- R23: the fault record. -/
  fault : Option Fault
  /-- R24: the output channel, oldest byte first. -/
  out : List Byte
deriving DecidableEq, Repr

/-- R28, with the recommended instantiation of the OPEN parameters `GPR_RESET` and `MEM_IMAGE` (log 2, log 3). -/
def State.reset : State where
  x := #v[Config.gprResetDefault, Config.gprResetDefault, Config.gprResetDefault, Config.gprResetDefault,
    Config.gprResetDefault, Config.gprResetDefault, Config.gprResetDefault, Config.spReset]
  pc := Config.pcReset
  mem := []
  runState := .running
  fault := none
  out := []

end Sys2Proof.Machine
end

