-- ==== Sys2Proof/Machine/Operands.lean ====
section
/-! DEFINITION. The operand forms (spec/30_encoding.md R53): a register index is the whole byte, checked and never
masked; an immediate is the whole byte as it stands. There is no other operand form. -/

namespace Sys2Proof.Machine

/-- R53 and spec/10_state.md R11: bytes 0 to 7 name R0 to R7; any other byte is `InvalidRegister`. -/
def regIndex (i : Byte) : Except Fault (Fin Config.nRegs) :=
  if h : i.toNat ≤ 7 then .ok ⟨i.toNat, Nat.lt_succ_of_le h⟩ else .error (.invalidRegister i)

/-- spec/40_fetch_decode_execute.md R73: `check a <= 7`, done before any state is written. -/
def checkReg (i : Byte) : Except Fault Unit :=
  if i.toNat ≤ 7 then .ok () else .error (.invalidRegister i)

/-- R53: the immediate, unsigned, used as it stands. -/
def immediate (b : Byte) : Nat := b.toNat

end Sys2Proof.Machine
end

