-- ==== Sys2Proof/Machine/Ops.lean ====
section
/-! DEFINITION. The named operations over memory and registers (the primitives of spec/00_scope.md R8), the two stack
operations (spec/10_state.md R21), and fault entry (spec/60_exceptions.md R130). There is no return from a fault
(R131): the one way out of FAULTED is reset (Machine/Reset.lean). -/

namespace Sys2Proof.Machine

/-! ## Memory cells (spec/20_memory.md R30) -/

/-- The byte a memory holds at an address; `Config.unlistedByte` where no entry lists it. -/
def Memory.read : Memory → Nat → Byte
  | [], _ => Config.unlistedByte
  | (k, w) :: rest, a => if k = a then w else Memory.read rest a

/-- The memory after one byte is stored: the canonical form is kept, so storing `Config.unlistedByte` removes the
entry. -/
def Memory.write : Memory → Nat → Byte → Memory
  | [], a, v => if v = Config.unlistedByte then [] else [(a, v)]
  | (k, w) :: rest, a, v =>
    if a < k then (if v = Config.unlistedByte then (k, w) :: rest else (a, v) :: (k, w) :: rest)
    else if a = k then (if v = Config.unlistedByte then rest else (a, v) :: rest)
    else (k, w) :: Memory.write rest a v

/-- The canonical form: addresses in the address space and strictly rising, no entry equal to what an unlisted
address reads as. -/
def Memory.wf : Memory → Bool
  | [] => true
  | (k, w) :: rest =>
    decide (k < Config.memSize) && decide (w ≠ Config.unlistedByte) && rest.all (fun c => decide (k < c.1)) &&
      Memory.wf rest

/-- The memory whose cells from address `a` upward hold the given bytes, every other cell `Config.unlistedByte`. -/
def Memory.ofBytes : Nat → List Byte → Memory
  | _, [] => []
  | a, v :: rest =>
    if v = Config.unlistedByte then Memory.ofBytes (a + 1) rest else (a, v) :: Memory.ofBytes (a + 1) rest

/-! ## Updates of one field -/

/-- Register `n` takes `v`. -/
def State.setReg (s : State) (n : Fin Config.nRegs) (v : Byte) : State := { s with x := s.x.set n v }

/-- spec/10_state.md R17: the program counter takes `target`. -/
def State.setPc (s : State) (target : Nat) : State := { s with pc := target }

/-- Memory becomes `m`. -/
def State.setMem (s : State) (m : Memory) : State := { s with mem := m }

/-- spec/10_state.md R24: `Out(v)`, append one byte to the output channel. -/
def State.emit (s : State) (v : Byte) : State := { s with out := s.out ++ [v] }

/-- spec/46_hlt_unknown.md R115: `run_state <- HALTED`. -/
def State.halt (s : State) : State := { s with runState := .halted }

/-- spec/40_fetch_decode_execute.md R76: the sequential advance by the instruction's width, not reduced modulo 256. -/
def State.advance (s : State) (width : Nat) : State := s.setPc (s.pc + width)

/-! ## Register access (spec/10_state.md R11, R12) -/

/-- The byte register `n` holds. -/
def State.reg (s : State) (n : Fin Config.nRegs) : Byte := s.x[n]

/-- R11: `x[i]`. -/
def State.readReg (s : State) (i : Byte) : Except Fault Byte := do
  let n ← regIndex i
  pure (s.reg n)

/-- R12: `x[i] <- v`, for a natural number `v`. -/
def State.writeReg (s : State) (i : Byte) (v : Nat) : Except Fault State := do
  let n ← regIndex i
  pure (s.setReg n (trunc8 v))

/-! ## Memory access (spec/20_memory.md R31, R32) -/

/-- R31: `MemRead(addr, 1)`; the address is checked, not wrapped. -/
def State.memRead (s : State) (addr : Nat) : Except Fault Byte :=
  if addr ≤ 255 then .ok (s.mem.read addr) else .error (.addressOutOfRange addr)

/-- R32: `MemWrite(addr, 1, v)`, for a natural number `v`. -/
def State.memWrite (s : State) (addr v : Nat) : Except Fault State :=
  if addr ≤ 255 then .ok (s.setMem (s.mem.write addr (trunc8 v))) else .error (.addressOutOfRange addr)

/-! ## Stack pointer logic (spec/10_state.md R19 to R21) -/

/-- R19: `SP`, register 7. -/
def State.sp (s : State) : Byte := s.reg Config.spIndex

/-- R21: `SP <- trunc8(SP - 1)`. -/
def State.decSp (s : State) : State := s.setReg Config.spIndex (s.sp - 1)

/-- R21: `SP <- trunc8(SP + 1)`. -/
def State.incSp (s : State) : State := s.setReg Config.spIndex (s.sp + 1)

/-- R21: `Push(v)`: pre-decrement, then store at the new SP. -/
def State.push (s : State) (v : Nat) : Except Fault State := s.decSp.memWrite s.decSp.sp.toNat v

/-- R21: `Pop()`: load at SP, then post-increment. -/
def State.pop (s : State) : Except Fault (Byte × State) := do
  let t ← s.memRead s.sp.toNat
  pure (t, s.incSp)

/-! ## Fault entry (spec/60_exceptions.md R130) -/

/-- R130: the fault record takes the cause and its information and the run state becomes FAULTED; registers, memory,
`pc` and output keep the values they had when the step began. -/
def State.raise (s : State) (f : Fault) : State := { s with runState := .faulted, fault := some f }

/-- The end of a step that began in `s`: what the instruction computed, or the fault it raised, with none of its
changes (R130). -/
def settle (s : State) : Except Fault State → Host.Outcome State Fault Refusal
  | .ok t => .next t
  | .error f => .next (s.raise f)

/-! ## The report to the host (spec/10_state.md R24, R27, spec/60_exceptions.md R120) -/

/-- R120: the numeric code of the fault record, 0 for none (the spec's decision D11). -/
def faultCode : Option Fault → Nat
  | none => 0
  | some (.addressOutOfRange _) => 1
  | some (.invalidRegister _) => 2
  | some (.unsupportedOperation _) => 3
  | some .divisionByZero => 4
  | some (.unknownInstruction _) => 5

/-- R120: the information value recorded with the cause, where there is one. -/
def faultInfo : Option Fault → Option Nat
  | none => none
  | some (.addressOutOfRange addr) => some addr
  | some (.invalidRegister i) => some i.toNat
  | some (.unsupportedOperation op) => some op.toNat
  | some .divisionByZero => none
  | some (.unknownInstruction opcode) => some opcode.toNat

/-- R24: the decimal digits of the unsigned value of an emitted byte, most significant first, no leading zeros. -/
def decimalDigits (v : Byte) : List Nat :=
  if 100 ≤ v.toNat then [v.toNat / 100, v.toNat / 10 % 10, v.toNat % 10]
  else if 10 ≤ v.toNat then [v.toNat / 10, v.toNat % 10]
  else [v.toNat]

/-- R24: what the host shows of the output channel, one line of digits per byte, oldest first (log 15). -/
def State.outputLines (s : State) : List (List Nat) := s.out.map decimalDigits

end Sys2Proof.Machine
end

