-- ==== Sys2Proof/Machine/CallRet.lean ====
section
/-! DEFINITION. CALL and RET (spec/45_call_ret.md), the only instructions that assign the program counter. -/

namespace Sys2Proof.Machine

/-- R110: the index check, `SP <- trunc8(SP - 1) ; MemWrite(SP, 1, pc + 2)`, then `pc <- x[a]` with `x[a]` read after
SP changed (the spec's decision D18). -/
def execCall (a : Byte) (s : State) : Host.Outcome State Fault Refusal :=
  settle s do
    checkReg a
    let t ← s.push (s.pc + 2)
    let target ← t.readReg a
    pure (t.setPc target.toNat)

/-- R111: `t <- MemRead(SP, 1) ; SP <- trunc8(SP + 1) ; pc <- t`. -/
def execRet (s : State) : Host.Outcome State Fault Refusal :=
  settle s do
    let (target, t) ← s.pop
    pure (t.setPc target.toNat)

end Sys2Proof.Machine
end

