-- ==== Sys2Proof/Machine/Halt.lean ====
section
/-! DEFINITION. HLT (spec/46_hlt_unknown.md R115). The unknown-instruction fallback (R116) is in Machine/Fetch.lean. -/

namespace Sys2Proof.Machine

/-- R115: `run_state <- HALTED`; `pc` keeps the address of the HLT opcode (the spec's decision D10). -/
def execHlt (s : State) : Host.Outcome State Fault Refusal := settle s (.ok s.halt)

end Sys2Proof.Machine
end

