-- ==== Sys2Proof/Machine/LoadPrint.lean ====
section
/-! DEFINITION. LDI and PRN (spec/42_ldi_prn.md). -/

namespace Sys2Proof.Machine

/-- R95: `x[a] <- b ; pc <- pc + 3`. -/
def execLdi (a b : Byte) (s : State) : Host.Outcome State Fault Refusal :=
  settle s do
    let t ← s.writeReg a (immediate b)
    pure (t.advance 3)

/-- R96: `Out(x[a]) ; pc <- pc + 2`. -/
def execPrn (a : Byte) (s : State) : Host.Outcome State Fault Refusal :=
  settle s do
    let v ← s.readReg a
    pure ((s.emit v).advance 2)

end Sys2Proof.Machine
end

