-- ==== Sys2Proof/Machine/Flags.lean ====
section
/-! DEFINITION. The core has no flags, condition codes or predicates (spec/10_state.md R25): no instruction computes
one. The only indications an operation gives beside its result are the ALU's two fault lines `fault_div0` and
`fault_unsup` (R27, spec/41_alu.md R85); they are here. -/

namespace Sys2Proof.Machine

/-- spec/41_alu.md R86: the four operations of the ALU. -/
inductive AluOp where
  | add | sub | mul | div
deriving DecidableEq, Repr

/-- R86: the 3-bit selector of an operation (the spec's decision D13). -/
def AluOp.selector : AluOp → BitVec 3
  | .add => 0
  | .sub => 1
  | .mul => 2
  | .div => 3

/-- R86: the operation a selector names; 4 to 7 name none. -/
def aluOp (selector : BitVec 3) : Option AluOp :=
  [AluOp.add, AluOp.sub, AluOp.mul, AluOp.div].find? fun op => op.selector == selector

/-- R91: the line `fault_unsup`, for a selector that is no operation. -/
def faultUnsup (selector : BitVec 3) : Bool := (aluOp selector).isNone

/-- R90: the line `fault_div0`, for DIV with divisor 0. -/
def faultDiv0 (selector : BitVec 3) (b : Byte) : Bool := selector == AluOp.div.selector && b == 0

end Sys2Proof.Machine
end

