-- ==== Sys2Proof/Machine/Alu.lean ====
section
/-! DEFINITION. The ALU (spec/41_alu.md R85 to R91): the exact result over the natural numbers, truncated to 8 bits. -/

namespace Sys2Proof.Machine

/-- R87 to R90: the result of an operation; the quotient of DIV is meant for a divisor other than 0 (`alu`). -/
def aluResult : AluOp → Byte → Byte → Byte
  | .add, a, b => trunc8 (a.toNat + b.toNat)
  | .sub, a, b => trunc8 (a.toNat + 256 - b.toNat)
  | .mul, a, b => trunc8 (a.toNat * b.toNat)
  | .div, a, b => trunc8 (a.toNat / b.toNat)

/-- R85: `Alu(op, a_val, b_val)`, by the selector of R86. -/
def alu (selector : BitVec 3) (a b : Byte) : Except Fault Byte :=
  match aluOp selector with
  | none => .error (.unsupportedOperation selector)
  | some op => if faultDiv0 selector b then .error .divisionByZero else .ok (aluResult op a b)

end Sys2Proof.Machine
end

