-- ==== Sys2Proof/Machine/MulAdd.lean ====
section
/-! DEFINITION. MUL and ADD (spec/43_mul_add.md). -/

namespace Sys2Proof.Machine

/-- R100, R101: `a` is checked before `b` (the spec's decision D5), both are read before the result is written. -/
def aluToRegister (op : AluOp) (a b : Byte) (s : State) : Except Fault State := do
  checkReg a
  checkReg b
  let va ← s.readReg a
  let vb ← s.readReg b
  let r ← alu op.selector va vb
  let t ← s.writeReg a r.toNat
  pure (t.advance 3)

/-- R100: `x[a] <- Alu(MUL, x[a], x[b]) ; pc <- pc + 3`. -/
def execMul (a b : Byte) (s : State) : Host.Outcome State Fault Refusal := settle s (aluToRegister .mul a b s)

/-- R101: `x[a] <- Alu(ADD, x[a], x[b]) ; pc <- pc + 3`. -/
def execAdd (a b : Byte) (s : State) : Host.Outcome State Fault Refusal := settle s (aluToRegister .add a b s)

end Sys2Proof.Machine
end

