-- ==== Sys2Proof/Machine/PushPop.lean ====
section
/-! DEFINITION. PUSH and POP (spec/44_push_pop.md). Each statement sees the effect of those before it (R8 and the
spec's decision D18), which settles PUSH R7 and POP R7. -/

namespace Sys2Proof.Machine

/-- R105: the index check, `SP <- trunc8(SP - 1) ; MemWrite(SP, 1, x[a])` with `x[a]` read after SP changed,
`pc <- pc + 2`. -/
def execPush (a : Byte) (s : State) : Host.Outcome State Fault Refusal :=
  settle s do
    checkReg a
    let v ← s.decSp.readReg a
    let t ← s.push v.toNat
    pure (t.advance 2)

/-- R106: the index check, `x[a] <- MemRead(SP, 1) ; SP <- trunc8(SP + 1)` with SP read after `x[a]` was written,
`pc <- pc + 2`. -/
def execPop (a : Byte) (s : State) : Host.Outcome State Fault Refusal :=
  settle s do
    checkReg a
    let v ← s.memRead s.sp.toNat
    let t ← s.writeReg a v.toNat
    pure (t.incSp.advance 2)

end Sys2Proof.Machine
end

