-- ==== Sys2Proof/Syntax.lean ====
section
/-! DEFINITION. The nine instructions (spec/30_encoding.md R55), one constructor per row of
spec/opcode_table.json. An operand is a whole byte (R53): register indices 8 to 255 are legal encodings (R58). -/

namespace Sys2Proof

/-- R55: the instruction set, "the whole of it". `a` is the byte at `pc + 1`, `b` the byte at `pc + 2` (R51). -/
inductive Instr where
  /-- LDI regA, immediate (format RI, R95). -/
  | ldi (a b : Byte)
  /-- PRN regA (format R, R96). -/
  | prn (a : Byte)
  /-- MUL regA, regB (format RR, R100). -/
  | mul (a b : Byte)
  /-- ADD regA, regB (format RR, R101). -/
  | add (a b : Byte)
  /-- PUSH regA (format R, R105). -/
  | push (a : Byte)
  /-- POP regA (format R, R106). -/
  | pop (a : Byte)
  /-- CALL regA (format R, R110). -/
  | call (a : Byte)
  /-- RET (format Z, R111). -/
  | ret
  /-- HLT (format Z, R115). -/
  | hlt
deriving DecidableEq, Repr

end Sys2Proof
end

