-- ==== Sys2Proof/WellFormed.lean ====
section
/-! DEFINITION. Well-formed instructions: those the assembly syntax can write (spec/30_encoding.md R60, R62) and
spec/70_reset_and_hazards.md R144(5) asks of an image, every register operand in 0 to 7. The ill-formed ones are
encodable and executable: they raise `InvalidRegister` (R58). No statement of this package is restricted to the
well-formed instructions. -/

namespace Sys2Proof

/-- R53: a byte that names a register, 0 to 7. -/
def isRegIndex (i : Byte) : Bool := decide (i.toNat ≤ 7)

/-- R62: every register operand is 0 to 7; an immediate is any byte. -/
def Instr.wellFormed : Instr → Bool
  | .ldi a _ => isRegIndex a
  | .prn a => isRegIndex a
  | .mul a b => isRegIndex a && isRegIndex b
  | .add a b => isRegIndex a && isRegIndex b
  | .push a => isRegIndex a
  | .pop a => isRegIndex a
  | .call a => isRegIndex a
  | .ret => true
  | .hlt => true

end Sys2Proof
end

