-- ==== Sys2Proof/Decode.lean ====
section
/-! DEFINITION. The instruction decoder (spec/30_encoding.md R50 to R59), total on any bytes and rejecting by name,
and after it the encoder (R62). The two are written from two tables of the spec: the decoder from R55's binary
column, the encoder from R62's byte layout. -/

namespace Sys2Proof

/-- R54: what the decoder tells of an opcode byte; `unknown` is every byte outside the table of R55. -/
inductive Kind where
  | ldi | prn | mul | add | push | pop | call | ret | hlt | unknown
deriving DecidableEq, Repr

/-- Why a list of bytes is not an instruction. -/
inductive Reject where
  /-- There is no opcode byte. The model's own rejection (log 24). -/
  | noOpcode
  /-- The opcode is none of the nine (R57), or its operand count is 3 (spec/40_fetch_decode_execute.md R71). -/
  | unknownInstruction (opcode : Byte)
  /-- Fewer operand bytes follow the opcode than bits 7:6 ask for. The model's own rejection (log 24); the core's
  fetch faults instead. -/
  | operandMissing (opcode : Byte)
deriving DecidableEq, Repr

/-- R50: `nops = opcode[7:6]`. -/
def operandCount (opcode : Byte) : Nat := (opcode.extractLsb 7 6).toNat

/-- R55: the opcode column, in the document's order. -/
def opcodeTable : List (Byte × Kind) :=
  [ (0b10000010, .ldi), (0b01000111, .prn), (0b10100010, .mul), (0b10100000, .add), (0b01000101, .push),
    (0b01000110, .pop), (0b01010000, .call), (0b00010001, .ret), (0b00000001, .hlt) ]

/-- R54: the row whose opcode equals the byte in all eight bits, and `unknown` if no row matches. -/
def kindOf (opcode : Byte) : Kind := (opcodeTable.lookup opcode).getD .unknown

/-- R51, format Z: no operand byte. -/
def formatZ (i : Instr) : List Byte → Option Instr
  | [] => some i
  | _ => none

/-- R51, format R: one operand byte. -/
def formatR (i : Byte → Instr) : List Byte → Option Instr
  | [a] => some (i a)
  | _ => none

/-- R51, formats RR and RI: two operand bytes. -/
def formatRR (i : Byte → Byte → Instr) : List Byte → Option Instr
  | [a, b] => some (i a b)
  | _ => none

/-- R51, R55: the instruction of a kind from its operand bytes, in the order they stand in memory. -/
def Kind.build : Kind → List Byte → Option Instr
  | .ldi => formatRR .ldi
  | .prn => formatR .prn
  | .mul => formatRR .mul
  | .add => formatRR .add
  | .push => formatR .push
  | .pop => formatR .pop
  | .call => formatR .call
  | .ret => formatZ .ret
  | .hlt => formatZ .hlt
  | .unknown => fun _ => none

/-- The instruction at the head of a list of bytes, lowest address first, and the bytes after it (R50, R54, and the
order of spec/40_fetch_decode_execute.md R71: the operand bytes are wanted before the opcode is looked up). -/
def decode : List Byte → Except Reject (Instr × List Byte)
  | [] => .error .noOpcode
  | opcode :: rest =>
    if operandCount opcode = 3 then .error (.unknownInstruction opcode)
    else if rest.length < operandCount opcode then .error (.operandMissing opcode)
    else
      match (kindOf opcode).build (rest.take (operandCount opcode)) with
      | some i => .ok (i, rest.drop (operandCount opcode))
      | none => .error (.unknownInstruction opcode)

/-- The bytes of a number whose bit 0 is the least significant bit of the byte at the lowest address: the layout of
spec/opcode_table.json, every bit above `nbits` zero. -/
def wordBytes (nbits w : Nat) : List Byte :=
  (List.range Config.maxIlen).map fun k => trunc8 (w % 2 ^ nbits / 256 ^ k)

/-- The instruction `decode` reads from a word numbered as spec/opcode_table.json numbers it. -/
def decodeTableWord (nbits w : Nat) : Option Instr :=
  match decode (wordBytes nbits w) with
  | .ok (i, _) => some i
  | .error _ => none

/-- R62: an instruction's bytes, lowest address first. -/
def encode : Instr → List Byte
  | .ldi a b => [0x82, a, b]
  | .prn a => [0x47, a]
  | .mul a b => [0xA2, a, b]
  | .add a b => [0xA0, a, b]
  | .push a => [0x45, a]
  | .pop a => [0x46, a]
  | .call a => [0x50, a]
  | .ret => [0x11]
  | .hlt => [0x01]

/-- The number an instruction's bytes make, numbered as spec/opcode_table.json numbers them. -/
def wordOfBytes : List Byte → Nat
  | [] => 0
  | v :: rest => v.toNat + 256 * wordOfBytes rest

/-- R62: the operand byte `0n` that names Rn. -/
def regOperand (n : Fin Config.nRegs) : Byte := trunc8 n.val

/-! ## Assembly text (R60, R62) -/

/-- R60: a register operand's name; an index above 7 has none. -/
def registerName (i : Byte) : Option String := ["R0", "R1", "R2", "R3", "R4", "R5", "R6", "R7"][i.toNat]?

/-- R60, R62: an instruction as the document writes it, an immediate in decimal; an ill-formed one cannot be
written. -/
def assembly : Instr → Option String
  | .ldi a b => (registerName a).map fun ra => "LDI " ++ ra ++ "," ++ toString b.toNat
  | .prn a => (registerName a).map fun ra => "PRN " ++ ra
  | .mul a b => (registerName a).bind fun ra => (registerName b).map fun rb => "MUL " ++ ra ++ "," ++ rb
  | .add a b => (registerName a).bind fun ra => (registerName b).map fun rb => "ADD " ++ ra ++ "," ++ rb
  | .push a => (registerName a).map fun ra => "PUSH " ++ ra
  | .pop a => (registerName a).map fun ra => "POP " ++ ra
  | .call a => (registerName a).map fun ra => "CALL " ++ ra
  | .ret => some "RET"
  | .hlt => some "HLT"

end Sys2Proof
end

