-- ==== Sys2Proof/Machine/Fetch.lean ====
section
/-! DEFINITION. The common fetch of every instruction (spec/40_fetch_decode_execute.md R70 to R72). -/

namespace Sys2Proof.Machine

/-- The `n` bytes from `addr` upward, read in rising order. -/
def State.readBytes (s : State) (addr : Nat) : Nat → Except Fault (List Byte)
  | 0 => .ok []
  | n + 1 => do
    let v ← s.memRead addr
    let rest ← s.readBytes (addr + 1) n
    pure (v :: rest)

/-- R70, R71: the opcode at `pc`, then as many operand bytes as its bits 7:6 ask for; none is fetched for a count of
3 (the spec's decision D4). -/
def State.fetchBytes (s : State) : Except Fault (Byte × List Byte) := do
  let opcode ← s.memRead s.pc
  if operandCount opcode = 3 then .error (.unknownInstruction opcode)
  else do
    let operands ← s.readBytes (s.pc + 1) (operandCount opcode)
    pure (opcode, operands)

/-- R70 to R72 and spec/46_hlt_unknown.md R116: the instruction at `pc`, or the fault of fetching it or of looking
its opcode up. -/
def State.fetchInstr (s : State) : Except Fault Instr := do
  let fetched ← s.fetchBytes
  match decode (fetched.1 :: fetched.2) with
  | .ok (i, _) => .ok i
  | .error _ => .error (.unknownInstruction fetched.1)

/-- The memory with the given bytes stored from `addr` upward. -/
def Memory.writeBytes (m : Memory) (addr : Nat) : List Byte → Memory
  | [] => m
  | v :: rest => Memory.writeBytes (m.write addr v) (addr + 1) rest

end Sys2Proof.Machine
end

