-- ==== Sys2Proof/Machine/Reset.lean ====
section
/-! DEFINITION. Reset for every choice of the OPEN parameters (spec/10_state.md R28, spec/70_reset_and_hazards.md
R140 to R143), and the memory image a loader produces (R141, R142). -/

namespace Sys2Proof.Machine

/-- R28 and R140: the state right after reset, for `GPR_RESET` and `MEM_IMAGE` as given. -/
def State.start (gprReset : Vector Byte 7) (memImage : Vector Byte Config.memSize) : State where
  x := #v[gprReset[0], gprReset[1], gprReset[2], gprReset[3], gprReset[4], gprReset[5], gprReset[6], Config.spReset]
  pc := Config.pcReset
  mem := Memory.ofBytes 0 memImage.toList
  runState := .running
  fault := none
  out := []

/-- R141, R142: the image of a program, byte `k` at address `k`, the rest filled with `Config.unlistedByte` as the
recommended loader does. A program of more than 256 bytes makes the loader write to address 256, which memory
rejects; the core is then never started. -/
def loadImage (program : List Byte) : Except Fault (Vector Byte Config.memSize) :=
  if h : program.length ≤ Config.memSize then
    .ok ⟨(program ++ List.replicate (Config.memSize - program.length) Config.unlistedByte).toArray, by
      simp only [List.size_toArray, List.length_append, List.length_replicate]; omega⟩
  else .error (.addressOutOfRange Config.memSize)

end Sys2Proof.Machine
end

