-- ==== Sys2Proof/Machine/Step.lean ====
section
/-! DEFINITION. One step of the machine (spec/40_fetch_decode_execute.md R73), the one thing the host can do to it
(spec/60_exceptions.md R137), and placing an instruction where the next step fetches it. -/

namespace Sys2Proof.Machine

/-- R73: one whole instruction, from opcode fetch to the last state write. In HALTED and FAULTED the core fetches
nothing and the state does not change (spec/10_state.md R22; log 6). -/
def step (s : State) : Host.Outcome State Fault Refusal :=
  match s.runState with
  | .running =>
    match s.fetchInstr with
    | .ok i => exec i s
    | .error f => .next (s.raise f)
  | .halted => .next s
  | .faulted => .next s

/-- What can happen to the machine (spec/60_exceptions.md R137): it takes a step, or the host applies reset with
the parameters it supplies. -/
inductive Event where
  | step
  | reset (gprReset : Vector Byte 7) (memImage : Vector Byte Config.memSize)
deriving DecidableEq, Repr

/-- spec/70_reset_and_hazards.md R143: reset can be applied in any state, and nothing survives it. -/
def State.after (s : State) : Event → Host.Outcome State Fault Refusal
  | .step => Sys2Proof.Machine.step s
  | .reset gprReset memImage => .next (State.start gprReset memImage)

/-- `s` with an instruction of at most three bytes, its bits numbered as spec/opcode_table.json numbers them, where
the next step fetches. The step must be defined, so the run state is RUNNING; where `pc` leaves no room for three
bytes below address 256 it moves to the load base (log 4, log 17). -/
def State.withFetchWord (s : State) (nbits w : Nat) : State :=
  let base := if s.pc + Config.maxIlen ≤ Config.memSize then s.pc else Config.loadBase
  { s with pc := base, mem := s.mem.writeBytes base (wordBytes nbits w), runState := .running, fault := none }

end Sys2Proof.Machine
end

