-- ==== Sys2Proof/Machine/Blocks.lean ====
section
/-! DEFINITION. The seven blocks of spec/00_scope.md R2 and the output channel, each with the inputs, outputs and
widths of the table of spec/10_state.md R27, and the step they make together by the table of
spec/40_fetch_decode_execute.md R81. This is the spec's own partition (decision D12) and nothing of it is observable:
`step` (Machine/Step.lean) is the machine, and a statement says that `blockStep` agrees with it.
A structure `…In` is a block's inputs and its default field values are an idle input. A block is consulted once for
every event of R74 that concerns it. What R27 leaves open of the wires is fixed in log 16. The reset that R27 implies
for the blocks that hold state is `State.start` (Machine/Reset.lean). -/

namespace Sys2Proof.Machine.Blocks

/-- A memory address at a port, `ADDR_W` bits. -/
abbrev Addr := BitVec Config.addrWidth

/-! ## `memory_array` (spec/20_memory.md R31, R32), which holds `M` -/

/-- R27: the inputs of `memory_array`. -/
structure MemoryIn where
  addr : Addr
  we : Bool := false
  wdata : BitVec 9 := 0#9
deriving DecidableEq, Repr

/-- The memory after the access and `rdata`, the addressed byte as it was before; or `fault_aoor` with `addr` as
info. A write stores the low 8 bits of `wdata`. -/
def memoryArray (m : Memory) (p : MemoryIn) : Except Addr (Memory × Byte) :=
  if p.addr.toNat < Config.memSize then
    .ok (if p.we then m.write p.addr.toNat (p.wdata.setWidth 8) else m, m.read p.addr.toNat)
  else .error p.addr

/-! ## `register_file` (spec/10_state.md R11, R12), which holds `x[0..7]` -/

/-- R27: the inputs of `register_file`; `wdata` is already reduced modulo 256. -/
structure RegisterIn where
  ridxA : Byte := 0#8
  ridxB : Byte := 0#8
  widx : Byte := 0#8
  we : Bool := false
  wdata : Byte := 0#8
deriving DecidableEq, Repr

/-- R27: the data outputs of `register_file`. -/
structure RegisterOut where
  rdataA : Byte
  rdataB : Byte
deriving DecidableEq, Repr

/-- The index check of one port: `fault_invreg` with the index as info. -/
def indexCheck (i : Byte) : Except Byte (Fin Config.nRegs) :=
  if h : i.toNat < Config.nRegs then .ok ⟨i.toNat, h⟩ else .error i

/-- The registers after the access and both read ports, which give the values before it; or `fault_invreg`, of the
first bad index of `ridx_a`, `ridx_b` and, where `we` is raised, `widx`. Decision D5 puts `a` before `b`; that `widx`
comes after both, and is checked only while `we` is raised, is the model's choice (log 16). -/
def registerFile (x : Vector Byte Config.nRegs) (p : RegisterIn) :
    Except Byte (Vector Byte Config.nRegs × RegisterOut) := do
  let a ← indexCheck p.ridxA
  let b ← indexCheck p.ridxB
  let data : RegisterOut := ⟨x[a], x[b]⟩
  if p.we then do
    let w ← indexCheck p.widx
    pure (x.set w p.wdata, data)
  else pure (x, data)

/-! ## `program_counter` (spec/10_state.md R15 to R17), which holds `pc` -/

/-- R27: the inputs of `program_counter`; `advance` is the amount to add, 1 to 3. -/
structure PcIn where
  advance : BitVec 2 := 0#2
  load : Bool := false
  target : Byte := 0#8
  hold : Bool := false
deriving DecidableEq, Repr

/-- `pc`, 9 bits, after the step: unchanged on `hold`, the target on `load`, else the sum. -/
def programCounter (pc : Addr) (p : PcIn) : Addr :=
  if p.hold then pc
  else if p.load then p.target.setWidth Config.addrWidth
  else pc + p.advance.setWidth Config.addrWidth

/-! ## `instruction_decoder` (spec/30_encoding.md R54 to R57) -/

/-- R27: the outputs of `instruction_decoder`. The decoder's own row lists `kind` and `nops`; spec/41_alu.md R86 has it
produce the ALU's selector, and the row of `fetch_unit` has it give `halt`. -/
structure DecoderOut where
  kind : Kind
  nops : BitVec 2
  op : BitVec 3
  halt : Bool
deriving DecidableEq, Repr

/-- From `opcode`, 8 bits. R86: the selector is 2 for opcode 0xA2, 0 for 0xA0, and never another; that it is 0 for
every other opcode is the model's choice (log 16). -/
def instructionDecoder (opcode : Byte) : DecoderOut where
  kind := kindOf opcode
  nops := opcode.extractLsb 7 6
  op := match kindOf opcode with
    | .mul => AluOp.mul.selector
    | .add => AluOp.add.selector
    | .ldi | .prn | .push | .pop | .call | .ret | .hlt | .unknown => AluOp.add.selector
  halt := decide (kindOf opcode = .hlt)

/-! ## `alu` (spec/41_alu.md R85) -/

/-- R27: the inputs of `alu`. -/
structure AluIn where
  op : BitVec 3
  aVal : Byte
  bVal : Byte
deriving DecidableEq, Repr

/-- R27: the outputs of `alu`; there is no `result` while a fault line is raised. -/
structure AluOut where
  result : Option Byte
  faultDiv0 : Bool
  faultUnsup : Bool
deriving DecidableEq, Repr

/-- The block `alu` at its ports. -/
def aluBlock (p : AluIn) : AluOut where
  result := (alu p.op p.aVal p.bVal).toOption
  faultDiv0 := faultDiv0 p.op p.bVal
  faultUnsup := faultUnsup p.op

/-! ## `stack_pointer_logic` (spec/10_state.md R19 to R21), which holds nothing: SP is `x[7]` -/

/-- R27: the inputs of `stack_pointer_logic`, and `rdata` of `memory_array`, from which `pop_data` comes. -/
structure StackIn where
  push : Bool := false
  pop : Bool := false
  x7 : Byte
  pushData : BitVec 9 := 0#9
  rdata : Byte := 0#8
deriving DecidableEq, Repr

/-- R27: the outputs of `stack_pointer_logic`: the new SP to the register file's write port, the stack address and the
push data to `memory_array`, and `pop_data`. -/
structure StackOut where
  newSp : Byte
  addr : Addr
  wdata : BitVec 9
  popData : Byte
deriving DecidableEq, Repr

/-- R21: a push decrements SP and addresses the new SP, a pop addresses SP and increments it. -/
def stackPointerLogic (p : StackIn) : StackOut where
  newSp := if p.push then p.x7 - 1 else if p.pop then p.x7 + 1 else p.x7
  addr := (if p.push then p.x7 - 1 else p.x7).setWidth Config.addrWidth
  wdata := p.pushData
  popData := p.rdata

/-- R81: the push data `stack_pointer_logic` selects: `pc + 2` for CALL, `x[a]` for PUSH, 9 bits. -/
def pushData (call : Bool) (pc : Addr) (xa : Byte) : BitVec 9 :=
  if call then pc + 2 else xa.setWidth 9

/-! ## The output channel, a port of the core (spec/10_state.md R24) -/

/-- R27: `out_valid` and `out_data`. That `out_data` is 0 while `out_valid` is low is the model's choice (log 16);
the host does not look at it then. -/
structure OutPort where
  valid : Bool := false
  data : Byte := 0#8
deriving DecidableEq, Repr

/-- What the host does with the port: it appends the byte while `out_valid` is raised. -/
def OutPort.received (p : OutPort) (out : List Byte) : List Byte := if p.valid then out ++ [p.data] else out

/-! ## `fetch_unit` (spec/40_fetch_decode_execute.md R70, R71, R73, R78), which holds the run state and the record -/

/-- The state of `fetch_unit`. -/
structure FetchState where
  runState : RunState
  fault : Option Fault
deriving DecidableEq, Repr

/-- R78: the end of a step: a raised fault line is recorded and stops the core, else the decoder's `halt` stops it.
In HALTED and FAULTED nothing changes. -/
def fetchUnit (q : FetchState) (line : Option Fault) (halt : Bool) : FetchState :=
  match q.runState with
  | .running =>
    match line with
    | some f => ⟨.faulted, some f⟩
    | none => ⟨if halt then .halted else .running, q.fault⟩
  | .halted => q
  | .faulted => q

/-- R27: what `fetch_unit` shows outside: `run_state`, `fault_cause`, `fault_info`. -/
def FetchState.report (q : FetchState) : RunState × Nat × Option Nat := (q.runState, faultCode q.fault, faultInfo q.fault)

/-- `fetch_unit` watches the memory's fault line. -/
def watchMemory {α : Type} : Except Addr α → Except Fault α
  | .ok v => .ok v
  | .error addr => .error (.addressOutOfRange addr.toNat)

/-- `fetch_unit` watches the register file's fault line. -/
def watchRegisters {α : Type} : Except Byte α → Except Fault α
  | .ok v => .ok v
  | .error i => .error (.invalidRegister i)

/-- `fetch_unit` watches the ALU's two fault lines. -/
def watchAlu (p : AluIn) : Except Fault Byte :=
  let o := aluBlock p
  match o.result with
  | some v => .ok v
  | none => .error (if o.faultUnsup then .unsupportedOperation p.op else .divisionByZero)

/-! ## One event at a block that holds state -/

/-- An access to `memory_array`, watched. -/
def memoryAccess (s : State) (p : MemoryIn) : Except Fault (State × Byte) := do
  let (m, rdata) ← watchMemory (memoryArray s.mem p)
  pure ({ s with mem := m }, rdata)

/-- An access to `register_file`, watched. -/
def registerAccess (s : State) (p : RegisterIn) : Except Fault (State × RegisterOut) := do
  let (x, data) ← watchRegisters (registerFile s.x p)
  pure ({ s with x := x }, data)

/-- R19: `stack_pointer_logic` reads R7 through the register file's read path. That the port is `ridx_a` is the
model's choice (log 16). -/
def readSp (s : State) : Except Fault Byte := do
  let (_, data) ← registerAccess s { ridxA := regOperand Config.spIndex }
  pure data.rdataA

/-- R19: the new SP of `stack_pointer_logic` through the register file's write path. -/
def updateSp (s : State) (o : StackOut) : Except Fault State := do
  let (t, _) ← registerAccess s { widx := regOperand Config.spIndex, we := true, wdata := o.newSp }
  pure t

/-! ## The events of each instruction (R74 items 5 to 7, R81)

The input `x7` of `stack_pointer_logic` comes through the register file's read path (R19) and the ALU's `op` from the
decoder (R86). The control inputs of the blocks, `push`, `pop`, `we`, `load`, `hold`, the amount on `advance`, which
index goes to which port, and `out_valid` and `out_data` come from no block that R27 or R81 names: that `events` drives
them from the decoded instruction is the model's choice (log 16). -/

/-- PUSH and CALL: the index check, the new SP, then the push data stored at the stack address; and `x[a]` as it is
after SP changed. -/
def pushEvents (s : State) (call : Bool) (pc : Addr) (a : Byte) : Except Fault (State × Byte) := do
  let _ ← registerAccess s { ridxA := a }
  let x7 ← readSp s
  let t ← updateSp s (stackPointerLogic { push := true, x7 := x7 })
  let (_, data) ← registerAccess t { ridxA := a }
  let o := stackPointerLogic { push := true, x7 := x7, pushData := pushData call pc data.rdataA }
  let (u, _) ← memoryAccess t { addr := o.addr, we := true, wdata := o.wdata }
  pure (u, data.rdataA)

/-- POP and RET: `pop_data`, the byte at the stack address. -/
def popData (s : State) : Except Fault Byte := do
  let x7 ← readSp s
  let (_, rdata) ← memoryAccess s { addr := (stackPointerLogic { pop := true, x7 := x7 }).addr }
  pure (stackPointerLogic { pop := true, x7 := x7, rdata := rdata }).popData

/-- POP and RET: the new SP, from `x[7]` as it is then. -/
def popSp (s : State) : Except Fault State := do
  let x7 ← readSp s
  updateSp s (stackPointerLogic { pop := true, x7 := x7 })

/-- MUL and ADD: both read ports, the ALU, the write port. -/
def aluEvents (s : State) (op : BitVec 3) (a b : Byte) : Except Fault State := do
  let (_, data) ← registerAccess s { ridxA := a, ridxB := b }
  let result ← watchAlu { op := op, aVal := data.rdataA, bVal := data.rdataB }
  let (t, _) ← registerAccess s { widx := a, we := true, wdata := result }
  pure t

/-- What an instruction does at the blocks: the state of the register file and of memory, the inputs of
`program_counter`, the output port. -/
structure Effect where
  state : State
  pcIn : PcIn
  outPort : OutPort := {}
deriving DecidableEq, Repr

/-- R81: the events of an instruction; `pc` is the output of `program_counter`, `decoded` the outputs of the decoder.
The control inputs of the blocks, and the output port on PRN (`out_data` from `rdata_a`), are driven here, from the
instruction: the model's choice (log 16). -/
def events (s : State) (pc : Addr) (decoded : DecoderOut) : Instr → Except Fault Effect
  | .ldi a b => do
    let (t, _) ← registerAccess s { widx := a, we := true, wdata := b }
    pure { state := t, pcIn := { advance := 1 + decoded.nops } }
  | .prn a => do
    let (t, data) ← registerAccess s { ridxA := a }
    pure { state := t, pcIn := { advance := 1 + decoded.nops }, outPort := { valid := true, data := data.rdataA } }
  | .mul a b => do
    let t ← aluEvents s decoded.op a b
    pure { state := t, pcIn := { advance := 1 + decoded.nops } }
  | .add a b => do
    let t ← aluEvents s decoded.op a b
    pure { state := t, pcIn := { advance := 1 + decoded.nops } }
  | .push a => do
    let (t, _) ← pushEvents s false pc a
    pure { state := t, pcIn := { advance := 1 + decoded.nops } }
  | .pop a => do
    let _ ← registerAccess s { ridxA := a }
    let v ← popData s
    let (t, _) ← registerAccess s { widx := a, we := true, wdata := v }
    let u ← popSp t
    pure { state := u, pcIn := { advance := 1 + decoded.nops } }
  | .call a => do
    let (t, target) ← pushEvents s true pc a
    pure { state := t, pcIn := { load := true, target := target } }
  | .ret => do
    let v ← popData s
    let t ← popSp s
    pure { state := t, pcIn := { load := true, target := v } }
  | .hlt => pure { state := s, pcIn := { hold := true } }

/-! ## The step -/

/-- R71: `fetch_unit`'s read requests at the addresses after `addr`, and the operand bytes it latches. -/
def fetchOperands (s : State) (addr : Addr) : Nat → Except Fault (List Byte)
  | 0 => pure []
  | n + 1 => do
    let (_, v) ← memoryAccess s { addr := addr + 1 }
    let rest ← fetchOperands s (addr + 1) n
    pure (v :: rest)

/-- R70 to R72: the read request at `pc`, the decoder, the operands; the instruction the blocks carry out and the
decoder's outputs. -/
def fetchAndDecode (s : State) (pc : Addr) : Except Fault (Instr × DecoderOut) := do
  let (_, opcode) ← memoryAccess s { addr := pc }
  let decoded := instructionDecoder opcode
  if decoded.nops = 3 then .error (.unknownInstruction opcode)
  else do
    let operands ← fetchOperands s pc decoded.nops.toNat
    match decoded.kind.build operands with
    | some i => pure (i, decoded)
    | none => .error (.unknownInstruction opcode)

/-- R81: fetch, decode, the instruction's events, then `program_counter` and the output port; and the `halt` line. -/
def runBlocks (s : State) : Except Fault (State × Bool) := do
  let pc := BitVec.ofNat Config.addrWidth s.pc
  let (i, decoded) ← fetchAndDecode s pc
  let e ← events s pc decoded i
  pure ({ e.state with pc := (programCounter pc e.pcIn).toNat, out := e.outPort.received s.out }, decoded.halt)

/-- The state of the core with the given state of `fetch_unit`. -/
def withFetchState (s : State) (q : FetchState) : State := { s with runState := q.runState, fault := q.fault }

/-- R81: one step of the seven blocks, which `fetch_unit` begins only while RUNNING; on a fault every other block
keeps its state (spec/60_exceptions.md R130). -/
def blockStep (s : State) : State :=
  let q : FetchState := ⟨s.runState, s.fault⟩
  match s.runState with
  | .running =>
    match runBlocks s with
    | .ok (t, halt) => withFetchState t (fetchUnit q none halt)
    | .error f => withFetchState s (fetchUnit q (some f) false)
  | .halted => s
  | .faulted => s

end Sys2Proof.Machine.Blocks
end

