-- ==== Sys2Proof/Safety.lean ====
section
/-! DEFINITION. What claims about the core speak of: the invariant of every state, the fault a step must report, the
tables of what an instruction reads and writes, and the ends of a run. Each is written from the spec's own list or
table, not from the meanings. -/

namespace Sys2Proof.Machine

/-! ## Faults -/

/-- spec/60_exceptions.md R121 to R125: the faults a program can raise, with the information each can record. -/
def Fault.raisedByPrograms : Fault → Prop
  | .addressOutOfRange addr => addr = 256
  | .invalidRegister i => 7 < i.toNat
  | .unsupportedOperation _ => False
  | .divisionByZero => False
  | .unknownInstruction opcode => kindOf opcode = .unknown

/-- spec/60_exceptions.md R130: what fault entry leaves: everything but the run state and the fault record. -/
structure FaultEntry (s t : State) (f : Fault) : Prop where
  x : t.x = s.x
  pc : t.pc = s.pc
  mem : t.mem = s.mem
  out : t.out = s.out
  runState : t.runState = .faulted
  fault : t.fault = some f

/-- spec/60_exceptions.md R128, positions 1 to 7 in order: the fault a step that begins in `s` reports, if any. -/
def State.firstFault (s : State) : Option Fault :=
  let opcode := s.mem.read s.pc
  let a := s.mem.read (s.pc + 1)
  let b := s.mem.read (s.pc + 2)
  if s.pc = 256 then some (.addressOutOfRange 256)
  else if 0xC0 ≤ opcode.toNat then some (.unknownInstruction opcode)
  else if s.pc = 255 ∧ 0x40 ≤ opcode.toNat then some (.addressOutOfRange 256)
  else if s.pc = 254 ∧ 0x80 ≤ opcode.toNat then some (.addressOutOfRange 256)
  else if opcode ∉ [0x82, 0x47, 0xA2, 0xA0, 0x45, 0x46, 0x50, 0x11, 0x01] then some (.unknownInstruction opcode)
  else if opcode ∈ [0x82, 0x47, 0xA2, 0xA0, 0x45, 0x46, 0x50] ∧ 7 < a.toNat then some (.invalidRegister a)
  else if opcode ∈ [0xA2, 0xA0] ∧ 7 < b.toNat then some (.invalidRegister b)
  else none

/-! ## The invariant -/

/-- What every state the core can be in satisfies. -/
structure State.Inv (s : State) : Prop where
  /-- The memory list is in canonical form, which is the model's own (log 3, DESIGN CHOICE), inside the address space
  of spec/20_memory.md R30. -/
  memory : s.mem.wf = true
  /-- spec/10_state.md R15: the values `pc` can reach are 0 to 256. -/
  pcRange : s.pc ≤ 256
  /-- spec/10_state.md R23: the fault record is `none` while the run state is RUNNING or HALTED. -/
  noRecord : s.runState ≠ .faulted → s.fault = none
  /-- spec/10_state.md R23 and spec/41_alu.md R93: in FAULTED the record holds a fault that a program can raise. -/
  record : s.runState = .faulted → ∃ f, s.fault = some f ∧ f.raisedByPrograms
  /-- HLT was fetched at an address up to 255, and `pc` keeps that address: the spec's decision D10 (log 13). -/
  haltedBelow : s.runState = .halted → s.pc ≤ 255

/-! ## Reads and writes (spec/10_state.md R13, spec/20_memory.md R34) -/

/-- The register operands of an instruction, in the order they are checked (spec/60_exceptions.md R122). -/
def registerOperands : Instr → List Byte
  | .ldi a _ => [a]
  | .prn a => [a]
  | .mul a b => [a, b]
  | .add a b => [a, b]
  | .push a => [a]
  | .pop a => [a]
  | .call a => [a]
  | .ret => []
  | .hlt => []

/-- R13: the column "reads", register numbers. -/
def registersRead : Instr → List Nat
  | .ldi _ _ => []
  | .prn a => [a.toNat]
  | .mul a b => [a.toNat, b.toNat]
  | .add a b => [a.toNat, b.toNat]
  | .push a => [7, a.toNat]
  | .pop _ => [7]
  | .call a => [7, a.toNat]
  | .ret => [7]
  | .hlt => []

/-- R13: the column "writes", register numbers. -/
def registersWritten : Instr → List Nat
  | .ldi a _ => [a.toNat]
  | .prn _ => []
  | .mul a _ => [a.toNat]
  | .add a _ => [a.toNat]
  | .push _ => [7]
  | .pop a => [a.toNat, 7]
  | .call _ => [7]
  | .ret => [7]
  | .hlt => []

/-- R34: the cell a push lands in, `SP - 1 mod 256`. -/
def State.pushCell (s : State) : Nat := ((s.reg 7).toNat + 255) % 256

/-- R34: the cells an instruction stores to when it completes. -/
def cellsWritten (s : State) : Instr → List Nat
  | .push _ => [s.pushCell]
  | .call _ => [s.pushCell]
  | .ldi _ _ => []
  | .prn _ => []
  | .mul _ _ => []
  | .add _ _ => []
  | .pop _ => []
  | .ret => []
  | .hlt => []

/-- R34 and spec/40_fetch_decode_execute.md R71: the cells a step can read: the opcode, the operands its bits 7:6 ask
for (none for a count of 3), and for POP and RET the cell SP addresses. -/
def State.cellsRead (s : State) : List Nat :=
  let opcode := s.mem.read s.pc
  [s.pc] ++ (if 0x40 ≤ opcode.toNat ∧ opcode.toNat < 0xC0 then [s.pc + 1] else []) ++
    (if 0x80 ≤ opcode.toNat ∧ opcode.toNat < 0xC0 then [s.pc + 2] else []) ++
    (if opcode = 0x46 ∨ opcode = 0x11 then [(s.reg 7).toNat] else [])

/-- spec/10_state.md R17: an instruction's width in bytes. -/
def instrWidth : Instr → Nat
  | .ldi _ _ => 3
  | .prn _ => 2
  | .mul _ _ => 3
  | .add _ _ => 3
  | .push _ => 2
  | .pop _ => 2
  | .call _ => 2
  | .ret => 1
  | .hlt => 1

/-- The memory bytes from `pc` to the top of memory, lowest address first (spec/20_memory.md R35). -/
def State.bytesAtPc (s : State) : List Byte := (List.range' s.pc (256 - s.pc)).map s.mem.read

/-! ## The end of a run (spec/40_fetch_decode_execute.md R79, spec/60_exceptions.md R132) -/

/-- R132: a program "terminates with success status" when its run reaches HALTED; FAULTED is no success. -/
def State.succeeds (s : State) : Prop :=
  ∃ k t, Sys2Proof.core.run k s = .next t ∧ t.runState = .halted

/-- R79: the run ends, by HLT or by a fault. -/
def State.ends (s : State) : Prop :=
  ∃ k t, Sys2Proof.core.run k s = .next t ∧ t.runState ≠ .running

end Sys2Proof.Machine
end

