-- ==== Sys2Proof/Certificates/Slice0/Obligations.lean ====
section
/-! DEFINITION. The statements for the provers. Where a clause rests on a decision D<n> of spec/92_eei_decisions.md
(the spec's own choice, not the source's) or on a choice of this model (a log entry of notes/assumptions), the
docstring says so. -/

open Sys2Proof Sys2Proof.Machine

/-! ## Encoding -/

/-- spec/30_encoding.md R55: the nine opcodes, bit by bit, with every operand byte, and no other opcode is known. -/
def Obligations.OpcodeBytesDecodeToTheirInstructions : Prop :=
  (∀ (a b : Byte) (rest : List Byte),
    decode (0b10000010 :: a :: b :: rest) = .ok (.ldi a b, rest) ∧
    decode (0b01000111 :: a :: rest) = .ok (.prn a, rest) ∧
    decode (0b10100010 :: a :: b :: rest) = .ok (.mul a b, rest) ∧
    decode (0b10100000 :: a :: b :: rest) = .ok (.add a b, rest) ∧
    decode (0b01000101 :: a :: rest) = .ok (.push a, rest) ∧
    decode (0b01000110 :: a :: rest) = .ok (.pop a, rest) ∧
    decode (0b01010000 :: a :: rest) = .ok (.call a, rest) ∧
    decode (0b00010001 :: rest) = .ok (.ret, rest) ∧
    decode (0b00000001 :: rest) = .ok (.hlt, rest)) ∧
  ∀ (opcode : Byte) (bytes rest : List Byte) (i : Instr), decode (opcode :: bytes) = .ok (i, rest) →
    opcode ∈ [(0b10000010 : Byte), 0b01000111, 0b10100010, 0b10100000, 0b01000101, 0b01000110, 0b01010000,
      0b00010001, 0b00000001]

/-- spec/30_encoding.md R50, R51, R55, R57, R62: the decoder reads an instruction exactly where its encoding stands,
for every instruction, every operand byte and every continuation. -/
def Obligations.DecodeExactlyInvertsEncode : Prop :=
  ∀ (bytes rest : List Byte) (i : Instr), decode bytes = .ok (i, rest) ↔ bytes = encode i ++ rest

/-- spec/30_encoding.md R54, R57 and spec/40_fetch_decode_execute.md R71 (decisions D3, D4): every opcode outside the
table is rejected by name, once its operand bytes are there. The other two rejections, of an empty list and of an
opcode, known or not, with too few bytes after it, are the model's own (log 24): a byte list that ends has no
counterpart in the spec, where a fetch above address 255 faults with `AddressOutOfRange`. -/
def Obligations.EveryOtherByteListIsRejectedByName : Prop :=
  decode [] = .error .noOpcode ∧
  (∀ (opcode : Byte) (rest : List Byte),
    opcode ∉ [(0x82 : Byte), 0x47, 0xA2, 0xA0, 0x45, 0x46, 0x50, 0x11, 0x01] →
    (0xC0 ≤ opcode.toNat ∨ opcode.toNat / 64 ≤ rest.length) →
    decode (opcode :: rest) = .error (.unknownInstruction opcode)) ∧
  ∀ (opcode : Byte) (rest : List Byte), opcode.toNat < 0xC0 → rest.length < opcode.toNat / 64 →
    decode (opcode :: rest) = .error (.operandMissing opcode)

/-- spec/opcode_table.json: numbering an instruction's bits as the table does and decoding gives it back. -/
def Obligations.TableWordOfAnInstructionDecodesToIt : Prop :=
  ∀ i : Instr, decodeTableWord (8 * (encode i).length) (wordOfBytes (encode i)) = some i

/-! ## Memory, registers, ALU -/

/-- Memories in canonical form that read the same everywhere are the same list (spec/20_memory.md R30; the
canonical form is the model's, log 3). -/
def Obligations.CanonicalMemoriesThatReadEqualAreEqual : Prop :=
  ∀ m m' : Memory, m.wf = true → m'.wf = true → (∀ a, m.read a = m'.read a) → m = m'

/-- spec/10_state.md R11, R12: the whole byte is the index, checked and not masked; a write takes the value modulo
256 and changes no other cell. -/
def Obligations.RegisterFileReadsAndWrites : Prop :=
  ∀ (s : State) (i : Byte) (v : Nat),
    (7 < i.toNat →
      s.readReg i = .error (.invalidRegister i) ∧ s.writeReg i v = .error (.invalidRegister i)) ∧
    (∀ n : Fin 8, i.toNat = n.val →
      s.readReg i = .ok s.x[n] ∧
      ∃ t w, s.writeReg i v = .ok t ∧ t.readReg i = .ok w ∧ w.toNat = v % 256 ∧
        (∀ k : Fin 8, k ≠ n → t.x[k] = s.x[k]) ∧
        t.pc = s.pc ∧ t.mem = s.mem ∧ t.runState = s.runState ∧ t.fault = s.fault ∧ t.out = s.out)

/-- spec/20_memory.md R31, R32 (address width: decision D2): an address above 255 faults and is not wrapped; inside,
a write takes the value modulo 256, changes no other cell and keeps the canonical form (log 3). -/
def Obligations.MemoryReadsBackWhatWasWritten : Prop :=
  ∀ (s : State) (addr v : Nat), s.mem.wf = true →
    (255 < addr → s.memRead addr = .error (.addressOutOfRange addr) ∧
      s.memWrite addr v = .error (.addressOutOfRange addr)) ∧
    (addr ≤ 255 → s.memRead addr = .ok (s.mem.read addr) ∧
      ∃ t w, s.memWrite addr v = .ok t ∧ t.memRead addr = .ok w ∧ w.toNat = v % 256 ∧
        (∀ c, c ≠ addr → t.mem.read c = s.mem.read c) ∧ t.mem.wf = true ∧
        t.x = s.x ∧ t.pc = s.pc ∧ t.runState = s.runState ∧ t.fault = s.fault ∧ t.out = s.out)

/-- spec/41_alu.md R87, R89: ADD and MUL are exact results modulo 256 and never fault. -/
def Obligations.AluAddAndMulAreModulo256 : Prop :=
  ∀ a b : Byte,
    (∃ r, alu AluOp.add.selector a b = .ok r ∧ r.toNat = (a.toNat + b.toNat) % 256) ∧
    (∃ r, alu AluOp.mul.selector a b = .ok r ∧ r.toNat = a.toNat * b.toNat % 256)

/-- spec/41_alu.md R88 and R92 (the latter derived there): `SUB(a, b)` is `(a - b + 256) mod 256`, and it is the
unique byte `d` with `ADD(d, b) = a`. -/
def Obligations.AluSubIsTheInverseOfAdd : Prop :=
  ∀ a b : Byte, ∃ d, alu AluOp.sub.selector a b = .ok d ∧ d.toNat = (a.toNat + 256 - b.toNat) % 256 ∧
    alu AluOp.add.selector d b = .ok a ∧ ∀ e, alu AluOp.add.selector e b = .ok a → e = d

/-- spec/41_alu.md R90 (decision D7), R91 (decision D13): DIV is the floor quotient, its zero divisor and the
selectors 4 to 7 fault. -/
def Obligations.AluDivisionAndUnsupportedSelectors : Prop :=
  ∀ a b : Byte,
    alu AluOp.div.selector a 0 = .error .divisionByZero ∧
    (b ≠ 0 → ∃ q, alu AluOp.div.selector a b = .ok q ∧ q.toNat * b.toNat ≤ a.toNat ∧
      a.toNat < (q.toNat + 1) * b.toNat) ∧
    ∀ op : BitVec 3, 4 ≤ op.toNat → alu op a b = .error (.unsupportedOperation op)

/-! ## The instructions: result, frame and completion -/

/-- spec/42_ldi_prn.md R95, for every destination register, R7 included, and the fault of an index above 7. -/
def Obligations.LdiLoadsTheImmediate : Prop :=
  ∀ (b : Byte) (s : State),
    (∀ n : Fin 8, exec (.ldi (regOperand n) b) s = .next { s with x := s.x.set n b, pc := s.pc + 3 }) ∧
    ∀ a : Byte, 7 < a.toNat →
      exec (.ldi a b) s = .next { s with runState := .faulted, fault := some (.invalidRegister a) }

/-- spec/42_ldi_prn.md R96: the unsigned value of the register is appended to the output, shown in decimal digits
whose number is that value; an index above 7 faults and nothing is emitted. -/
def Obligations.PrnEmitsTheRegister : Prop :=
  ∀ s : State,
    (∀ n : Fin 8, exec (.prn (regOperand n)) s = .next { s with out := s.out ++ [s.x[n]], pc := s.pc + 2 } ∧
      (decimalDigits s.x[n]).foldl (fun acc d => 10 * acc + d) 0 = s.x[n].toNat) ∧
    ∀ a : Byte, 7 < a.toNat →
      exec (.prn a) s = .next { s with runState := .faulted, fault := some (.invalidRegister a) }

/-- spec/43_mul_add.md R100 (which of two bad indices is reported: decision D5; state after a fault: decision D6):
both factors are the old values, `regA = regB` included. -/
def Obligations.MulMultipliesModulo256 : Prop :=
  ∀ s : State,
    (∀ n k : Fin 8, ∃ r : Byte, r.toNat = s.x[n].toNat * s.x[k].toNat % 256 ∧
      exec (.mul (regOperand n) (regOperand k)) s = .next { s with x := s.x.set n r, pc := s.pc + 3 }) ∧
    (∀ a b : Byte, 7 < a.toNat →
      exec (.mul a b) s = .next { s with runState := .faulted, fault := some (.invalidRegister a) }) ∧
    ∀ (n : Fin 8) (b : Byte), 7 < b.toNat →
      exec (.mul (regOperand n) b) s = .next { s with runState := .faulted, fault := some (.invalidRegister b) }

/-- spec/43_mul_add.md R101 (decisions D5, D6 as for MUL). -/
def Obligations.AddAddsModulo256 : Prop :=
  ∀ s : State,
    (∀ n k : Fin 8, ∃ r : Byte, r.toNat = (s.x[n].toNat + s.x[k].toNat) % 256 ∧
      exec (.add (regOperand n) (regOperand k)) s = .next { s with x := s.x.set n r, pc := s.pc + 3 }) ∧
    (∀ a b : Byte, 7 < a.toNat →
      exec (.add a b) s = .next { s with runState := .faulted, fault := some (.invalidRegister a) }) ∧
    ∀ (n : Fin 8) (b : Byte), 7 < b.toNat →
      exec (.add (regOperand n) b) s = .next { s with runState := .faulted, fault := some (.invalidRegister b) }

/-- spec/44_push_pop.md R105 (R7 as operand: decision D18; checks before SP changes: decision D6): SP is decremented
modulo 256, the register as it is then is stored at the new SP, every other cell and register is unchanged. -/
def Obligations.PushStoresAtTheDecrementedSp : Prop :=
  ∀ s : State,
    (∀ n : Fin 8, s.mem.wf = true → ∃ t, exec (.push (regOperand n)) s = .next t ∧
      t.x = s.x.set 7 (s.x[7] - 1) ∧ t.x[7].toNat = s.pushCell ∧
      t.mem.read s.pushCell = t.x[n] ∧ (∀ c, c ≠ s.pushCell → t.mem.read c = s.mem.read c) ∧
      t.pc = s.pc + 2 ∧ t.out = s.out ∧ t.runState = s.runState ∧ t.fault = s.fault) ∧
    ∀ a : Byte, 7 < a.toNat →
      exec (.push a) s = .next { s with runState := .faulted, fault := some (.invalidRegister a) }

/-- spec/44_push_pop.md R106 (R7 as operand: decision D18; state after a fault: decision D6): the byte at SP is
loaded, then SP, read after the load, is incremented modulo 256. -/
def Obligations.PopLoadsAtSpThenIncrements : Prop :=
  ∀ s : State,
    (∀ n : Fin 8, ∃ t, exec (.pop (regOperand n)) s = .next t ∧
      (n ≠ 7 → t.x = (s.x.set n (s.mem.read s.x[7].toNat)).set 7 (s.x[7] + 1)) ∧
      (n = 7 → t.x = s.x.set 7 (s.mem.read s.x[7].toNat + 1)) ∧
      t.mem = s.mem ∧ t.pc = s.pc + 2 ∧ t.out = s.out ∧ t.runState = s.runState ∧ t.fault = s.fault) ∧
    ∀ a : Byte, 7 < a.toNat →
      exec (.pop a) s = .next { s with runState := .faulted, fault := some (.invalidRegister a) }

/-- spec/45_call_ret.md R110 (R7 as operand: decision D18; checks before SP changes: decision D6): the return address
`pc + 2`, modulo 256, is stored at the decremented SP, and `pc` takes the register as it is then. -/
def Obligations.CallPushesTheReturnAddressAndJumps : Prop :=
  ∀ s : State,
    (∀ n : Fin 8, s.mem.wf = true → ∃ t, exec (.call (regOperand n)) s = .next t ∧
      t.x = s.x.set 7 (s.x[7] - 1) ∧ t.x[7].toNat = s.pushCell ∧
      (t.mem.read s.pushCell).toNat = (s.pc + 2) % 256 ∧
      (∀ c, c ≠ s.pushCell → t.mem.read c = s.mem.read c) ∧
      t.pc = t.x[n].toNat ∧ t.out = s.out ∧ t.runState = s.runState ∧ t.fault = s.fault) ∧
    ∀ a : Byte, 7 < a.toNat →
      exec (.call a) s = .next { s with runState := .faulted, fault := some (.invalidRegister a) }

/-- spec/45_call_ret.md R111: the byte at SP becomes `pc`, SP is incremented modulo 256, nothing else changes. -/
def Obligations.RetPopsTheProgramCounter : Prop :=
  ∀ s : State, exec .ret s =
    .next { s with x := s.x.set 7 (s.x[7] + 1), pc := (s.mem.read s.x[7].toNat).toNat }

/-- spec/46_hlt_unknown.md R115 (`pc` after HLT: decision D10): the run state becomes HALTED, nothing else changes. -/
def Obligations.HltOnlyHalts : Prop :=
  ∀ s : State, exec .hlt s = .next { s with runState := .halted }

/-- spec/60_exceptions.md R122: `InvalidRegister` is raised exactly by the instructions with a register operand above
7 and records such an operand; RET and HLT have no operand. That it is the only fault an instruction itself raises
rests on more than R122: R121, R124, R125, and the spec's own inferences R21 of spec/10_state.md (a stack access is
never out of range) and R93 of spec/41_alu.md (no instruction makes the ALU fault). -/
def Obligations.InvalidRegisterIsRaisedExactlyByBadIndices : Prop :=
  ∀ (i : Instr) (s : State),
    ((∃ r ∈ registerOperands i, 7 < r.toNat) → ∃ t, exec i s = .next t ∧ t.runState = .faulted ∧
      ∃ r ∈ registerOperands i, 7 < r.toNat ∧ t.fault = some (.invalidRegister r)) ∧
    ((∀ r ∈ registerOperands i, r.toNat ≤ 7) → ∃ t, exec i s = .next t ∧ t.fault = s.fault ∧
      (t.runState = s.runState ∨ i = .hlt ∧ t.runState = .halted))

/-- spec/70_reset_and_hazards.md R144(5), spec/30_encoding.md R58, spec/60_exceptions.md R122: executing an instruction
faults exactly when it is ill-formed (log 21, DEDUCED: a register operand above 7), and halts exactly when it is HLT
(spec/46_hlt_unknown.md R115). That a well-formed instruction raises no other fault rests on R121, R124, R125 and on
the spec's own inferences R21 of spec/10_state.md and R93 of spec/41_alu.md. -/
def Obligations.ExecutionFaultsExactlyOnIllFormedInstructions : Prop :=
  ∀ (i : Instr) (s : State), s.runState = .running →
    ∃ t, exec i s = .next t ∧ (t.runState = .faulted ↔ i.wellFormed = false) ∧
      (t.runState = .halted ↔ i = .hlt)

/-! ## Frames of the whole instruction set -/

/-- spec/10_state.md R13, the column "writes": no instruction changes a register outside it. -/
def Obligations.RegistersOutsideTheWriteTableAreUnchanged : Prop :=
  ∀ (i : Instr) (s t : State), exec i s = .next t →
    ∀ k : Fin 8, k.val ∉ registersWritten i → t.x[k] = s.x[k]

/-- spec/10_state.md R13, the column "reads": changing a register outside it changes nothing of an instruction's
effect but that register's own value, and not even that where the instruction writes it and does not fault. -/
def Obligations.RegistersOutsideTheReadTableDoNotMatter : Prop :=
  ∀ (i : Instr) (s t t' : State) (n : Fin 8) (v : Byte), n.val ∉ registersRead i → s.runState = .running →
    exec i s = .next t → exec i { s with x := s.x.set n v } = .next t' →
    t'.pc = t.pc ∧ t'.mem = t.mem ∧ t'.runState = t.runState ∧ t'.fault = t.fault ∧ t'.out = t.out ∧
    (∀ k : Fin 8, k ≠ n → t'.x[k] = t.x[k]) ∧
    (n.val ∈ registersWritten i → t.runState ≠ .faulted → t'.x[n] = t.x[n]) ∧
    (n.val ∉ registersWritten i → t'.x[n] = v)

/-- spec/20_memory.md R34, the column "writes", as a frame: PUSH and CALL change at most the cell `(SP - 1) mod 256`,
no other instruction changes a cell. What PUSH and CALL store there is said by `PushStoresAtTheDecrementedSp` and
`CallPushesTheReturnAddressAndJumps`. -/
def Obligations.CellsOutsideTheStoreTableAreUnchanged : Prop :=
  ∀ (i : Instr) (s t : State), exec i s = .next t →
    ∀ c, c ∉ cellsWritten s i → t.mem.read c = s.mem.read c

/-- spec/10_state.md R17 (HLT: decision D10, log 13; a faulting instruction: decision D6, log 8): how each instruction
leaves `pc`; the sum `pc + width` is not reduced modulo 256. R17 gives CALL `x[a]`; that it is the register as it is
after SP changed, which matters for CALL R7, is R110 of spec/45_call_ret.md by decision D18 (log 10). -/
def Obligations.PcAfterEachInstruction : Prop :=
  ∀ (i : Instr) (s t : State), s.runState = .running → exec i s = .next t →
    (t.runState = .faulted → t.pc = s.pc) ∧
    (t.runState ≠ .faulted →
      match i with
      | .call a => ∃ n : Fin 8, a.toNat = n.val ∧ t.pc = t.x[n].toNat
      | .ret => t.pc = (s.mem.read s.x[7].toNat).toNat
      | .hlt => t.pc = s.pc
      | .ldi _ _ => t.pc = s.pc + 3
      | .mul _ _ => t.pc = s.pc + 3
      | .add _ _ => t.pc = s.pc + 3
      | .prn _ => t.pc = s.pc + 2
      | .push _ => t.pc = s.pc + 2
      | .pop _ => t.pc = s.pc + 2)

/-! ## The step -/

/-- spec/40_fetch_decode_execute.md R72, R73: while RUNNING, when the bytes at `pc` decode to an instruction (well
formed or not), the step is that instruction's execution and nothing else. -/
def Obligations.StepRunsTheDecodedInstruction : Prop :=
  ∀ (s : State) (i : Instr) (rest : List Byte), s.runState = .running →
    decode s.bytesAtPc = .ok (i, rest) → step s = exec i s

/-- An instruction placed by `withFetchWord` is the one the next step runs, from any state (log 4, log 17). -/
def Obligations.PlacedInstructionIsTheNextOneRun : Prop :=
  ∀ (s : State) (i : Instr), s.mem.wf = true →
    let t := s.withFetchWord (8 * (encode i).length) (wordOfBytes (encode i))
    step t = exec i t ∧ t.x = s.x ∧ t.out = s.out ∧ (s.pc ≤ 253 → t.pc = s.pc)

/-- spec/10_state.md R22 (decision D19): in HALTED and FAULTED nothing changes, however many steps are asked for.
That a step is then the identity, not undefined, is the model's choice (log 6). -/
def Obligations.StoppedCoreNeverChanges : Prop :=
  ∀ s : State, s.runState ≠ .running → step s = .next s ∧ ∀ k, Sys2Proof.core.run k s = .next s

/-- spec/70_reset_and_hazards.md R152 (derived there): a running core continues, halts or faults; it is never
stuck. -/
def Obligations.RunningCoreContinuesHaltsOrFaults : Prop :=
  ∀ s : State, s.runState = .running → ∃ t, step s = .next t ∧
    ((t.runState = .running ∧ t.fault = s.fault) ∨ (t.runState = .halted ∧ t.fault = s.fault) ∨
      (t.runState = .faulted ∧ ∃ f, t.fault = some f))

/-- No run of any length from any state meets an outcome of the model other than a next state: every instruction has
its effect and every fault its entry (spec/60_exceptions.md R130; log 5). -/
def Obligations.NoRunEndsInAModelStop : Prop :=
  ∀ (k : Nat) (s : State), ∃ t, Sys2Proof.core.run k s = .next t

/-- spec/60_exceptions.md R128 and R130 (decisions D3 to D6): a step reports the first fault of the list, changes
nothing but the run state and the record then, and completes where the list has none. -/
def Obligations.StepReportsTheFirstFaultPrecisely : Prop :=
  ∀ s : State, s.runState = .running → s.pc ≤ 256 →
    match s.firstFault with
    | some f => ∃ t, step s = .next t ∧ FaultEntry s t f
    | none => ∃ t, step s = .next t ∧ t.runState ≠ .faulted ∧ t.fault = s.fault

/-- spec/40_fetch_decode_execute.md R78: a running core comes to HALTED exactly by fetching the HLT opcode. -/
def Obligations.CoreHaltsExactlyOnTheHltOpcode : Prop :=
  ∀ s t : State, s.runState = .running → step s = .next t →
    (t.runState = .halted ↔ s.pc ≤ 255 ∧ s.mem.read s.pc = 0x01)

/-- spec/10_state.md R15 (decision D1): `pc = 256` is reached only by the sequential advance of an instruction that
ends at address 255. -/
def Obligations.PcReaches256OnlySequentially : Prop :=
  ∀ s t : State, s.runState = .running → s.pc ≤ 255 → step s = .next t → t.pc = 256 →
    s.pc + 1 + (s.mem.read s.pc).toNat / 64 = 256 ∧
    s.mem.read s.pc ∈ [(0x82 : Byte), 0x47, 0xA2, 0xA0, 0x45, 0x46] ∧ t.runState = .running

/-- spec/10_state.md R24 (decision D14): the output channel is append-only, at most one byte a step. -/
def Obligations.OutputOnlyGrows : Prop :=
  ∀ (k : Nat) (s t : State), Sys2Proof.core.run k s = .next t →
    ∃ emitted, t.out = s.out ++ emitted ∧ emitted.length ≤ k

/-- spec/10_state.md R24: the digits shown of an emitted byte are decimal digits of its unsigned value, without a
leading zero. -/
def Obligations.OutputDigitsHaveNoLeadingZero : Prop :=
  ∀ v : Byte, (∀ d ∈ decimalDigits v, d ≤ 9) ∧
    (decimalDigits v).foldl (fun acc d => 10 * acc + d) 0 = v.toNat ∧
    ((decimalDigits v).head? = some 0 → v = 0 ∧ decimalDigits v = [0])

/-! ## Reset and the invariant -/

/-- spec/10_state.md R28, spec/70_reset_and_hazards.md R140, R143 (decisions D8, D9, D11, D21): reset for every
choice of the OPEN parameters, from any state. -/
def Obligations.ResetInstallsTheStartState : Prop :=
  ∀ (s : State) (gprReset : Vector Byte 7) (memImage : Vector Byte 256), ∃ t,
    s.after (.reset gprReset memImage) = .next t ∧ t.x[7] = 0xF4 ∧
    (∀ n : Fin 7, t.x[n.castSucc] = gprReset[n]) ∧ t.pc = 0 ∧
    (∀ (a : Nat) (h : a < 256), t.mem.read a = memImage[a]) ∧
    t.runState = .running ∧ t.fault = none ∧ t.out = []

/-- spec/70_reset_and_hazards.md R141, R142: byte `k` of the program is at address `k`; an over-long program is
refused before the core starts, which R142 does not take from its document but derives there (log 22, DEDUCED). The fill
of the cells beyond the program is the model's choice (log 3). -/
def Obligations.LoaderPlacesTheProgramAtAddressZero : Prop :=
  ∀ program : List Byte,
    (program.length ≤ 256 → ∃ image, loadImage program = .ok image ∧
      ∀ (k : Nat) (h : k < 256), image[k] = program.getD k Config.unlistedByte) ∧
    (256 < program.length → loadImage program = .error (.addressOutOfRange 256))

/-- The invariant holds right after reset, for every `GPR_RESET` and `MEM_IMAGE` and for the values `State.reset`
takes (log 2, log 3). -/
def Obligations.InvariantHoldsAtReset : Prop :=
  State.reset.Inv ∧ ∀ (gprReset : Vector Byte 7) (memImage : Vector Byte 256), (State.start gprReset memImage).Inv

/-- Every step keeps the invariant: memory stays in canonical form (the model's own, log 3, DESIGN CHOICE), `pc` stays
in 0 to 256 (spec/10_state.md R15), the fault record is there exactly in FAULTED (R23) and holds a fault that a program
can raise (spec/41_alu.md R93, spec/60_exceptions.md R121), and a HALTED core's `pc` is at most 255, because HLT leaves
`pc` at its own opcode (decision D10, log 13). -/
def Obligations.EveryStepKeepsTheInvariant : Prop :=
  ∀ s t : State, s.Inv → step s = .next t → t.Inv

/-! ## Laws of two instructions, and of the whole machine -/

/-- spec/44_push_pop.md R107 (derived there): PUSH then POP of the same register, R7 included, restores every
register and SP. -/
def Obligations.PushThenPopRestoresEveryRegister : Prop :=
  ∀ (s : State) (n : Fin 8), s.runState = .running → s.mem.wf = true → s.pc ≤ 252 →
    s.mem.read s.pc = 0x45 → s.mem.read (s.pc + 1) = regOperand n →
    s.mem.read (s.pc + 2) = 0x46 → s.mem.read (s.pc + 3) = regOperand n →
    s.pushCell ≠ s.pc + 2 → s.pushCell ≠ s.pc + 3 →
    ∃ t u, step s = .next t ∧ step t = .next u ∧ u.x = s.x ∧ u.pc = s.pc + 4 ∧
      u.mem.read s.pushCell = t.x[n] ∧ (∀ c, c ≠ s.pushCell → u.mem.read c = s.mem.read c) ∧
      u.out = s.out ∧ u.runState = .running ∧ u.fault = s.fault

/-- spec/45_call_ret.md R112 (derived there): a RET in any state whose SP and stacked byte are as CALL left them
returns to CALL's `pc + 2` and restores SP; a CALL at 254 returns to 0 (spec/70_reset_and_hazards.md R149). -/
def Obligations.RetReturnsAfterTheCall : Prop :=
  ∀ (s t u : State) (n : Fin 8), s.mem.wf = true → s.pc ≤ 254 →
    exec (.call (regOperand n)) s = .next t → u.x[7] = t.x[7] → u.mem.read s.pushCell = t.mem.read s.pushCell →
    ∃ v, exec .ret u = .next v ∧ v.pc = (if s.pc = 254 then 0 else s.pc + 2) ∧ v.x[7] = s.x[7]

/-- spec/20_memory.md R44 (derived there): a byte pushed into the next instruction's opcode is the opcode the next
step fetches; pushing the HLT opcode there halts the core (spec/46_hlt_unknown.md R115), with `pc` unchanged by decision
D10 (log 13). -/
def Obligations.PushedOpcodeIsFetchedByTheNextStep : Prop :=
  ∀ (s : State) (n : Fin 8), s.runState = .running → s.mem.wf = true → s.pc ≤ 253 → n ≠ 7 →
    s.mem.read s.pc = 0x45 → s.mem.read (s.pc + 1) = regOperand n → s.pushCell = s.pc + 2 →
    ∃ t, step s = .next t ∧ t.pc = s.pc + 2 ∧ t.bytesAtPc.head? = some s.x[n] ∧
      (s.x[n] = 0x01 → step t = .next { t with runState := .halted })

/-- spec/20_memory.md R34 and spec/40_fetch_decode_execute.md R71: a step depends on no memory cell but the ones it
reads: changing another cell changes nothing of the step's effect, and no cell but that one. An opcode with operand
count 3 reads no operand (decision D4). -/
def Obligations.UnreadCellsDoNotInfluenceAStep : Prop :=
  ∀ (s t t' : State) (c : Nat) (v : Byte), s.runState = .running → s.mem.wf = true → c ≤ 255 → c ∉ s.cellsRead →
    step s = .next t → step { s with mem := s.mem.write c v } = .next t' →
    t'.x = t.x ∧ t'.pc = t.pc ∧ t'.out = t.out ∧ t'.runState = t.runState ∧ t'.fault = t.fault ∧
    ∀ d, d ≠ c → t'.mem.read d = t.mem.read d

/-- spec/10_state.md R27 and spec/40_fetch_decode_execute.md R81 (decision D12; wires R27 leaves open: log 16): the
seven blocks at their ports make the machine's step. -/
def Obligations.BlocksTogetherMakeTheStep : Prop :=
  ∀ s : State, s.pc ≤ 256 → step s = .next (Blocks.blockStep s)

/-- spec/10_state.md R21 and R27, spec/40_fetch_decode_execute.md R81 (decision D12; wires R27 leaves open: log 16):
what `stack_pointer_logic` answers on a push and on a pop, and that the decoder's `halt` line is raised by the HLT
opcode alone. spec/41_alu.md R86: the decoder's selector for the ALU is 0 for 0xA0, 2 for 0xA2 and never another. -/
def Obligations.StackPointerLogicAndDecoderLines : Prop :=
  (∀ (x7 rdata : Byte) (data : BitVec 9),
    (∃ o, Blocks.stackPointerLogic { push := true, x7 := x7, pushData := data, rdata := rdata } = o ∧
      o.newSp.toNat = (x7.toNat + 255) % 256 ∧ o.addr.toNat = o.newSp.toNat ∧ o.wdata = data) ∧
    ∃ o, Blocks.stackPointerLogic { pop := true, x7 := x7, pushData := data, rdata := rdata } = o ∧
      o.newSp.toNat = (x7.toNat + 1) % 256 ∧ o.addr.toNat = x7.toNat ∧ o.popData = rdata) ∧
  (∀ opcode : Byte, (Blocks.instructionDecoder opcode).halt = true ↔ opcode = 0x01) ∧
  (Blocks.instructionDecoder 0xA0).op = 0 ∧ (Blocks.instructionDecoder 0xA2).op = 2 ∧
  ∀ opcode : Byte, (Blocks.instructionDecoder opcode).op = 0 ∨ (Blocks.instructionDecoder opcode).op = 2
end

