-- ==== Sys2Proof/Laws/Memory.lean ====
section
/-! SUPPORT. The laws of memory: a read after a write, and the canonical form that every memory operation keeps. -/

namespace Sys2Proof.Machine

theorem Memory.wf_cons {k : Nat} {w : Byte} {rest : Memory} :
    Memory.wf ((k, w) :: rest) = true ↔
      k < 256 ∧ w ≠ Config.unlistedByte ∧ (∀ c ∈ rest, k < c.1) ∧ Memory.wf rest = true := by
  simp [Memory.wf, Config.memSize, and_assoc]

/-- An address below every listed one is unlisted. -/
theorem Memory.read_unlisted {m : Memory} {a : Nat} (h : ∀ c ∈ m, a < c.1) : m.read a = Config.unlistedByte := by
  induction m with
  | nil => rfl
  | cons c rest ih =>
    have hc := h c (by simp)
    rw [Memory.read, if_neg (by omega), ih fun d hd => h d (by simp [hd])]

/-- spec/20_memory.md R32: no other cell changes. -/
theorem Memory.read_write_other (m : Memory) {a b : Nat} (v : Byte) (h : b ≠ a) : (m.write a v).read b = m.read b := by
  induction m with
  | nil => by_cases hv : v = Config.unlistedByte <;> simp [Memory.write, Memory.read, hv, h.symm]
  | cons c rest ih =>
    obtain ⟨k, w⟩ := c
    unfold Memory.write
    split_ifs with h1 h2 h3 h4
    · rfl
    · simp [Memory.read, h.symm]
    · subst h3; simp [Memory.read, h.symm]
    · subst h3; simp [Memory.read, h.symm]
    · simp only [Memory.read, ih]

/-- spec/20_memory.md R32: the cell written holds the byte. -/
theorem Memory.read_write_same {m : Memory} (a : Nat) (v : Byte) (hm : m.wf = true) : (m.write a v).read a = v := by
  induction m with
  | nil => by_cases hv : v = Config.unlistedByte <;> simp [Memory.write, Memory.read, hv]
  | cons c rest ih =>
    obtain ⟨k, w⟩ := c
    obtain ⟨-, -, hk, hr⟩ := Memory.wf_cons.1 hm
    unfold Memory.write
    split_ifs with h1 h2 h3 h4
    · rw [h2]
      refine Memory.read_unlisted fun d hd => ?_
      rcases List.mem_cons.1 hd with rfl | hd
      · exact h1
      · exact h1.trans (hk d hd)
    · simp [Memory.read]
    · rw [h4]; exact Memory.read_unlisted fun d hd => h3 ▸ hk d hd
    · simp [Memory.read]
    · rw [Memory.read, if_neg (by omega), ih hr]

theorem Memory.read_write {m : Memory} (a b : Nat) (v : Byte) (hm : m.wf = true) :
    (m.write a v).read b = if b = a then v else m.read b := by
  split_ifs with h
  · rw [h, Memory.read_write_same a v hm]
  · exact Memory.read_write_other m v h

theorem Memory.mem_write {m : Memory} {a : Nat} {v : Byte} {c : Host.Cell} (h : c ∈ m.write a v) :
    c.1 = a ∨ c ∈ m := by
  induction m with
  | nil =>
    unfold Memory.write at h
    split_ifs at h <;> simp_all
  | cons d rest ih =>
    obtain ⟨k, w⟩ := d
    unfold Memory.write at h
    split_ifs at h with h1 h2 h3 h4
    · exact .inr h
    · rcases List.mem_cons.1 h with rfl | h
      · exact .inl rfl
      · exact .inr h
    · exact .inr (List.mem_cons_of_mem _ h)
    · rcases List.mem_cons.1 h with rfl | h
      · exact .inl rfl
      · exact .inr (List.mem_cons_of_mem _ h)
    · rcases List.mem_cons.1 h with rfl | h
      · exact .inr (by simp)
      · exact (ih h).imp_right (List.mem_cons_of_mem _)

/-- A write inside the address space keeps the canonical form. -/
theorem Memory.wf_write {m : Memory} {a : Nat} (v : Byte) (ha : a < 256) (hm : m.wf = true) :
    (m.write a v).wf = true := by
  induction m with
  | nil => by_cases hv : v = Config.unlistedByte <;> simp [Memory.write, Memory.wf, hv, ha, Config.memSize]
  | cons c rest ih =>
    obtain ⟨k, w⟩ := c
    obtain ⟨hk256, hw, hk, hr⟩ := Memory.wf_cons.1 hm
    unfold Memory.write
    split_ifs with h1 h2 h3 h4
    · exact hm
    · refine Memory.wf_cons.2 ⟨ha, h2, fun d hd => ?_, hm⟩
      rcases List.mem_cons.1 hd with rfl | hd
      · exact h1
      · exact h1.trans (hk d hd)
    · exact hr
    · subst h3; exact Memory.wf_cons.2 ⟨ha, h4, hk, hr⟩
    · refine Memory.wf_cons.2 ⟨hk256, hw, fun d hd => ?_, ih hr⟩
      rcases Memory.mem_write hd with h | h
      · omega
      · exact hk d h

theorem Memory.ofBytes_above {l : List Byte} {a : Nat} : ∀ c ∈ Memory.ofBytes a l, a ≤ c.1 := by
  induction l generalizing a with
  | nil => simp [Memory.ofBytes]
  | cons v rest ih =>
    intro c hc
    unfold Memory.ofBytes at hc
    split_ifs at hc with hv
    · exact (Nat.le_succ a).trans (ih c hc)
    · rcases List.mem_cons.1 hc with rfl | hc
      · exact le_rfl
      · exact (Nat.le_succ a).trans (ih c hc)

/-- An image inside the address space is in canonical form. -/
theorem Memory.wf_ofBytes {l : List Byte} {a : Nat} (h : a + l.length ≤ 256) : (Memory.ofBytes a l).wf = true := by
  induction l generalizing a with
  | nil => rfl
  | cons v rest ih =>
    rw [List.length_cons] at h
    unfold Memory.ofBytes
    split_ifs with hv
    · exact ih (by omega)
    · exact Memory.wf_cons.2 ⟨by omega, hv, fun c hc => Memory.ofBytes_above c hc, ih (by omega)⟩

/-- spec/70_reset_and_hazards.md R141: byte `k` of the image is at address `k`. -/
theorem Memory.read_ofBytes {l : List Byte} {a k : Nat} (h : k < l.length) : (Memory.ofBytes a l).read (a + k) = l[k] := by
  induction l generalizing a k with
  | nil => simp at h
  | cons v rest ih =>
    unfold Memory.ofBytes
    cases k with
    | zero =>
      split_ifs with hv
      · rw [List.getElem_cons_zero, hv]
        exact Memory.read_unlisted fun c hc => Memory.ofBytes_above c hc
      · simp [Memory.read]
    | succ k =>
      have hk : k < rest.length := by simpa using h
      have e : a + (k + 1) = a + 1 + k := by omega
      split_ifs with hv
      · rw [e, ih hk]; rfl
      · rw [Memory.read, if_neg (by omega), e, ih hk]; rfl

/-- Placing bytes inside the address space keeps the canonical form. -/
theorem Memory.wf_writeBytes {l : List Byte} {m : Memory} {a : Nat} (h : a + l.length ≤ 256) (hm : m.wf = true) :
    (m.writeBytes a l).wf = true := by
  induction l generalizing m a with
  | nil => exact hm
  | cons v rest ih =>
    rw [List.length_cons] at h
    exact ih (by omega) (Memory.wf_write v (by omega) hm)

theorem Memory.read_writeBytes_below {l : List Byte} {m : Memory} {a b : Nat} (h : b < a) :
    (m.writeBytes a l).read b = m.read b := by
  induction l generalizing m a with
  | nil => rfl
  | cons v rest ih => rw [Memory.writeBytes, ih (by omega), Memory.read_write_other _ _ (by omega)]

/-- The bytes placed read back. -/
theorem Memory.read_writeBytes {l : List Byte} {m : Memory} {a k : Nat} (h : a + l.length ≤ 256) (hm : m.wf = true)
    (hk : k < l.length) : (m.writeBytes a l).read (a + k) = l[k] := by
  induction l generalizing m a k with
  | nil => simp at hk
  | cons v rest ih =>
    rw [List.length_cons] at h
    rw [Memory.writeBytes]
    cases k with
    | zero =>
      change ((m.write a v).writeBytes (a + 1) rest).read a = v
      rw [Memory.read_writeBytes_below (by omega), Memory.read_write_same _ _ hm]
    | succ k =>
      rw [show a + (k + 1) = a + 1 + k by omega,
        ih (by omega) (Memory.wf_write v (by omega) hm) (by simpa using hk)]
      rfl

end Sys2Proof.Machine
end

