-- ==== Sys2Proof/Laws/State.lean ====
section
/-! SUPPORT. What each update of State does to each field, true by `rfl`, and reading a register after one is
written. -/

namespace Sys2Proof.Machine

variable (s : State) (n : Fin Config.nRegs) (v : Byte) (target width : Nat) (m : Memory) (f : Fault)

@[simp] theorem State.setReg_x : (s.setReg n v).x = s.x.set n v := rfl
@[simp] theorem State.setReg_pc : (s.setReg n v).pc = s.pc := rfl
@[simp] theorem State.setReg_mem : (s.setReg n v).mem = s.mem := rfl
@[simp] theorem State.setReg_runState : (s.setReg n v).runState = s.runState := rfl
@[simp] theorem State.setReg_fault : (s.setReg n v).fault = s.fault := rfl
@[simp] theorem State.setReg_out : (s.setReg n v).out = s.out := rfl

@[simp] theorem State.setPc_x : (s.setPc target).x = s.x := rfl
@[simp] theorem State.setPc_pc : (s.setPc target).pc = target := rfl
@[simp] theorem State.setPc_mem : (s.setPc target).mem = s.mem := rfl
@[simp] theorem State.setPc_runState : (s.setPc target).runState = s.runState := rfl
@[simp] theorem State.setPc_fault : (s.setPc target).fault = s.fault := rfl
@[simp] theorem State.setPc_out : (s.setPc target).out = s.out := rfl

@[simp] theorem State.setMem_x : (s.setMem m).x = s.x := rfl
@[simp] theorem State.setMem_pc : (s.setMem m).pc = s.pc := rfl
@[simp] theorem State.setMem_mem : (s.setMem m).mem = m := rfl
@[simp] theorem State.setMem_runState : (s.setMem m).runState = s.runState := rfl
@[simp] theorem State.setMem_fault : (s.setMem m).fault = s.fault := rfl
@[simp] theorem State.setMem_out : (s.setMem m).out = s.out := rfl

@[simp] theorem State.emit_x : (s.emit v).x = s.x := rfl
@[simp] theorem State.emit_pc : (s.emit v).pc = s.pc := rfl
@[simp] theorem State.emit_mem : (s.emit v).mem = s.mem := rfl
@[simp] theorem State.emit_runState : (s.emit v).runState = s.runState := rfl
@[simp] theorem State.emit_fault : (s.emit v).fault = s.fault := rfl
@[simp] theorem State.emit_out : (s.emit v).out = s.out ++ [v] := rfl

@[simp] theorem State.halt_x : s.halt.x = s.x := rfl
@[simp] theorem State.halt_pc : s.halt.pc = s.pc := rfl
@[simp] theorem State.halt_mem : s.halt.mem = s.mem := rfl
@[simp] theorem State.halt_runState : s.halt.runState = .halted := rfl
@[simp] theorem State.halt_fault : s.halt.fault = s.fault := rfl
@[simp] theorem State.halt_out : s.halt.out = s.out := rfl

@[simp] theorem State.advance_x : (s.advance width).x = s.x := rfl
@[simp] theorem State.advance_pc : (s.advance width).pc = s.pc + width := rfl
@[simp] theorem State.advance_mem : (s.advance width).mem = s.mem := rfl
@[simp] theorem State.advance_runState : (s.advance width).runState = s.runState := rfl
@[simp] theorem State.advance_fault : (s.advance width).fault = s.fault := rfl
@[simp] theorem State.advance_out : (s.advance width).out = s.out := rfl

@[simp] theorem State.raise_x : (s.raise f).x = s.x := rfl
@[simp] theorem State.raise_pc : (s.raise f).pc = s.pc := rfl
@[simp] theorem State.raise_mem : (s.raise f).mem = s.mem := rfl
@[simp] theorem State.raise_runState : (s.raise f).runState = .faulted := rfl
@[simp] theorem State.raise_fault : (s.raise f).fault = some f := rfl
@[simp] theorem State.raise_out : (s.raise f).out = s.out := rfl

@[simp] theorem State.decSp_pc : s.decSp.pc = s.pc := rfl
@[simp] theorem State.decSp_mem : s.decSp.mem = s.mem := rfl
@[simp] theorem State.decSp_runState : s.decSp.runState = s.runState := rfl
@[simp] theorem State.decSp_fault : s.decSp.fault = s.fault := rfl
@[simp] theorem State.decSp_out : s.decSp.out = s.out := rfl

@[simp] theorem State.incSp_pc : s.incSp.pc = s.pc := rfl
@[simp] theorem State.incSp_mem : s.incSp.mem = s.mem := rfl
@[simp] theorem State.incSp_runState : s.incSp.runState = s.runState := rfl
@[simp] theorem State.incSp_fault : s.incSp.fault = s.fault := rfl
@[simp] theorem State.incSp_out : s.incSp.out = s.out := rfl

/-! ## Registers -/

@[simp] theorem State.reg_setPc (k : Fin Config.nRegs) : (s.setPc target).reg k = s.reg k := rfl
@[simp] theorem State.reg_setMem (k : Fin Config.nRegs) : (s.setMem m).reg k = s.reg k := rfl
@[simp] theorem State.reg_emit (k : Fin Config.nRegs) : (s.emit v).reg k = s.reg k := rfl
@[simp] theorem State.reg_halt (k : Fin Config.nRegs) : s.halt.reg k = s.reg k := rfl
@[simp] theorem State.reg_advance (k : Fin Config.nRegs) : (s.advance width).reg k = s.reg k := rfl
@[simp] theorem State.reg_raise (k : Fin Config.nRegs) : (s.raise f).reg k = s.reg k := rfl

/-- spec/10_state.md R12: cell `n` takes the byte and no other cell changes. -/
theorem State.reg_setReg (k : Fin Config.nRegs) : (s.setReg n v).reg k = if k = n then v else s.reg k := by
  simp only [State.reg, State.setReg_x, Fin.getElem_fin, Vector.getElem_set, Fin.ext_iff, eq_comm]

@[simp] theorem State.reg_setReg_same : (s.setReg n v).reg n = v := by simp [State.reg_setReg]

theorem State.reg_setReg_other {k : Fin Config.nRegs} (h : k ≠ n) : (s.setReg n v).reg k = s.reg k := by
  simp [State.reg_setReg, h]

theorem State.reg_decSp (k : Fin Config.nRegs) : s.decSp.reg k = if k = Config.spIndex then s.sp - 1 else s.reg k :=
  State.reg_setReg ..

theorem State.reg_incSp (k : Fin Config.nRegs) : s.incSp.reg k = if k = Config.spIndex then s.sp + 1 else s.reg k :=
  State.reg_setReg ..

@[simp] theorem State.sp_decSp : s.decSp.sp = s.sp - 1 := State.reg_setReg_same ..
@[simp] theorem State.sp_incSp : s.incSp.sp = s.sp + 1 := State.reg_setReg_same ..

/-- Two register files are the same when every register reads the same. -/
theorem State.x_eq_of_reg {s t : State} (h : ∀ k, t.reg k = s.reg k) : t.x = s.x :=
  Vector.ext fun i hi => h ⟨i, hi⟩

end Sys2Proof.Machine
end

