-- ==== Sys2Proof/Laws/Ops.lean ====
section
/-! SUPPORT. One lemma per shared operation that says everything it can do. -/

namespace Sys2Proof

/-! ## Bytes -/

@[simp] theorem trunc8_toNat (v : Byte) : trunc8 v.toNat = v := by simp [trunc8]

theorem toNat_trunc8 (v : Nat) : (trunc8 v).toNat = v % 256 := by simp [trunc8]

@[simp] theorem toNat_regOperand (n : Fin Config.nRegs) : (regOperand n).toNat = n.val := by
  rw [regOperand, toNat_trunc8]; exact Nat.mod_eq_of_lt (n.isLt.trans (by decide))

/-- A byte up to 7 is the operand byte of a register. -/
theorem exists_regOperand {a : Byte} (h : a.toNat ≤ 7) : ∃ n : Fin Config.nRegs, a = regOperand n :=
  ⟨⟨a.toNat, Nat.lt_succ_of_le h⟩, BitVec.eq_of_toNat_eq (toNat_regOperand ⟨a.toNat, Nat.lt_succ_of_le h⟩).symm⟩

namespace Machine

/-! ## Sequencing in `Except` -/

@[simp] theorem ok_bind {α β : Type} (v : α) (k : α → Except Fault β) : ((.ok v : Except Fault α) >>= k) = k v := rfl
@[simp] theorem pure_bind_ok {α β : Type} (v : α) (k : α → Except Fault β) :
    ((pure v : Except Fault α) >>= k) = k v := rfl
@[simp] theorem error_bind {α β : Type} (f : Fault) (k : α → Except Fault β) :
    ((.error f : Except Fault α) >>= k) = .error f := rfl
@[simp] theorem pure_eq_ok {α : Type} (v : α) : (pure v : Except Fault α) = .ok v := rfl

/-! ## Registers -/

@[simp] theorem regIndex_regOperand (n : Fin Config.nRegs) : regIndex (regOperand n) = .ok n := by
  have h : n.val ≤ 7 := Nat.le_of_lt_succ n.isLt
  simp [regIndex, toNat_regOperand, h]

theorem regIndex_invalid {i : Byte} (h : 7 < i.toNat) : regIndex i = .error (.invalidRegister i) :=
  dif_neg (by omega)

@[simp] theorem checkReg_regOperand (n : Fin Config.nRegs) : checkReg (regOperand n) = .ok () := by
  have h : n.val ≤ 7 := Nat.le_of_lt_succ n.isLt
  simp [checkReg, toNat_regOperand, h]

theorem checkReg_invalid {i : Byte} (h : 7 < i.toNat) : checkReg i = .error (.invalidRegister i) :=
  if_neg (by omega)

@[simp] theorem State.readReg_regOperand (s : State) (n : Fin Config.nRegs) : s.readReg (regOperand n) = .ok (s.reg n) := by
  simp [State.readReg]

theorem State.readReg_invalid (s : State) {i : Byte} (h : 7 < i.toNat) : s.readReg i = .error (.invalidRegister i) := by
  simp [State.readReg, regIndex_invalid h]

@[simp] theorem State.writeReg_regOperand (s : State) (n : Fin Config.nRegs) (v : Nat) :
    s.writeReg (regOperand n) v = .ok (s.setReg n (trunc8 v)) := by
  simp [State.writeReg]

theorem State.writeReg_invalid (s : State) {i : Byte} (v : Nat) (h : 7 < i.toNat) :
    s.writeReg i v = .error (.invalidRegister i) := by
  simp [State.writeReg, regIndex_invalid h]

/-! ## Memory and the stack -/

theorem State.memRead_inside (s : State) {addr : Nat} (h : addr ≤ 255) : s.memRead addr = .ok (s.mem.read addr) :=
  if_pos h

theorem State.memRead_outside (s : State) {addr : Nat} (h : 255 < addr) :
    s.memRead addr = .error (.addressOutOfRange addr) :=
  if_neg (by omega)

/-- spec/10_state.md R21: an address that is a byte never faults. -/
@[simp] theorem State.memRead_byte (s : State) (b : Byte) : s.memRead b.toNat = .ok (s.mem.read b.toNat) :=
  s.memRead_inside (by have := b.isLt; omega)

@[simp] theorem State.memWrite_byte (s : State) (b : Byte) (v : Nat) :
    s.memWrite b.toNat v = .ok (s.setMem (s.mem.write b.toNat (trunc8 v))) :=
  if_pos (by have := b.isLt; omega)

theorem State.memWrite_outside (s : State) {addr : Nat} (v : Nat) (h : 255 < addr) :
    s.memWrite addr v = .error (.addressOutOfRange addr) :=
  if_neg (by omega)

/-- spec/10_state.md R21: everything a push does. -/
@[simp] theorem State.push_eq (s : State) (v : Nat) :
    s.push v = .ok (s.decSp.setMem (s.mem.write (s.sp - 1).toNat (trunc8 v))) := by
  rw [State.push, State.sp_decSp, State.memWrite_byte]; rfl

/-- spec/10_state.md R21: everything a pop does. -/
@[simp] theorem State.pop_eq (s : State) : s.pop = .ok (s.mem.read s.sp.toNat, s.incSp) := by
  simp [State.pop]

/-- The memory accesses keep the canonical form. -/
theorem State.memWrite_wf {s t : State} {addr v : Nat} (h : s.memWrite addr v = .ok t) (hs : s.mem.wf = true) :
    t.mem.wf = true := by
  unfold State.memWrite at h
  split_ifs at h with ha
  cases h
  exact Memory.wf_write _ (by omega) hs

/-! ## Fault entry -/

@[simp] theorem settle_ok (s t : State) : settle s (.ok t) = .next t := rfl
@[simp] theorem settle_error (s : State) (f : Fault) : settle s (.error f) = .next (s.raise f) := rfl

/-- A settled step always answers a next state: what was computed, or fault entry. -/
theorem settle_cases {s t : State} {r : Except Fault State} (h : settle s r = .next t) :
    r = .ok t ∨ ∃ f, r = .error f ∧ t = s.raise f := by
  cases r with
  | ok u => cases h; exact .inl rfl
  | error f => cases h; exact .inr ⟨f, rfl, rfl⟩

/-! ## The ALU -/

@[simp] theorem aluOp_selector (op : AluOp) : aluOp op.selector = some op := by cases op <;> rfl

@[simp] theorem faultDiv0_add (b : Byte) : faultDiv0 AluOp.add.selector b = false := rfl
@[simp] theorem faultDiv0_mul (b : Byte) : faultDiv0 AluOp.mul.selector b = false := rfl
@[simp] theorem faultDiv0_sub (b : Byte) : faultDiv0 AluOp.sub.selector b = false := rfl

@[simp] theorem alu_add (a b : Byte) : alu AluOp.add.selector a b = .ok (aluResult .add a b) := by simp [alu]
@[simp] theorem alu_sub (a b : Byte) : alu AluOp.sub.selector a b = .ok (aluResult .sub a b) := by simp [alu]
@[simp] theorem alu_mul (a b : Byte) : alu AluOp.mul.selector a b = .ok (aluResult .mul a b) := by simp [alu]

end Machine

end Sys2Proof
end

