-- ==== Sys2Proof/Laws/Blocks.lean ====
section
/-! SUPPORT. One lemma per block access and per group of events, in terms of the machine's own operations. -/

namespace Sys2Proof.Machine.Blocks

/-! ## `register_file` -/

@[simp] theorem indexCheck_regOperand (n : Fin Config.nRegs) : indexCheck (regOperand n) = .ok n := by
  have h : n.val < 8 := n.isLt
  simp [indexCheck, toNat_regOperand, h]

/-- The idle index 0 never raises `fault_invreg`. -/
@[simp] theorem indexCheck_idle : indexCheck 0#8 = .ok 0 := rfl

theorem indexCheck_invalid {i : Byte} (h : 7 < i.toNat) : indexCheck i = .error i := dif_neg (Nat.not_lt.2 h)

/-- One read port: the register, and the state as it was. -/
@[simp] theorem registerAccess_read (s : State) (n : Fin Config.nRegs) :
    registerAccess s { ridxA := regOperand n } = .ok (s, ⟨s.reg n, s.reg 0⟩) := by
  simp only [registerAccess, registerFile, indexCheck_regOperand, indexCheck_idle]; rfl

theorem registerAccess_read_invalid (s : State) {a : Byte} (h : 7 < a.toNat) :
    registerAccess s { ridxA := a } = .error (.invalidRegister a) := by
  simp only [registerAccess, registerFile, indexCheck_invalid h]; rfl

/-- Both read ports. -/
@[simp] theorem registerAccess_readBoth (s : State) (n k : Fin Config.nRegs) :
    registerAccess s { ridxA := regOperand n, ridxB := regOperand k } = .ok (s, ⟨s.reg n, s.reg k⟩) := by
  simp only [registerAccess, registerFile, indexCheck_regOperand]; rfl

/-- Of two bad indices the first is reported (spec/92_eei_decisions.md D5). -/
theorem registerAccess_readBoth_first_invalid (s : State) {a : Byte} (b : Byte) (h : 7 < a.toNat) :
    registerAccess s { ridxA := a, ridxB := b } = .error (.invalidRegister a) := by
  simp only [registerAccess, registerFile, indexCheck_invalid h]; rfl

theorem registerAccess_readBoth_second_invalid (s : State) (n : Fin Config.nRegs) {b : Byte} (h : 7 < b.toNat) :
    registerAccess s { ridxA := regOperand n, ridxB := b } = .error (.invalidRegister b) := by
  simp only [registerAccess, registerFile, indexCheck_regOperand, indexCheck_invalid h]; rfl

/-- The write port. -/
@[simp] theorem registerAccess_write (s : State) (n : Fin Config.nRegs) (v : Byte) :
    registerAccess s { widx := regOperand n, we := true, wdata := v } = .ok (s.setReg n v, ⟨s.reg 0, s.reg 0⟩) := by
  simp only [registerAccess, registerFile, indexCheck_regOperand, indexCheck_idle]; rfl

theorem registerAccess_write_invalid (s : State) {a : Byte} (v : Byte) (h : 7 < a.toNat) :
    registerAccess s { widx := a, we := true, wdata := v } = .error (.invalidRegister a) := by
  simp only [registerAccess, registerFile, indexCheck_invalid h, indexCheck_idle]; rfl

/-! ## `memory_array` -/

/-- A read request below address 256. -/
theorem memoryAccess_read_inside (s : State) {addr : Addr} (h : addr.toNat ≤ 255) :
    memoryAccess s { addr := addr } = .ok (s, s.mem.read addr.toNat) := by
  simp only [memoryAccess, memoryArray, if_pos (show addr.toNat < Config.memSize from Nat.lt_succ_of_le h)]; rfl

/-- An access from address 256 up raises `fault_aoor`. -/
theorem memoryAccess_outside (s : State) {p : MemoryIn} (h : 255 < p.addr.toNat) :
    memoryAccess s p = .error (.addressOutOfRange p.addr.toNat) := by
  simp only [memoryAccess, memoryArray, if_neg (show ¬ p.addr.toNat < Config.memSize from Nat.not_lt.2 h)]; rfl

@[simp] theorem toNat_byteAddr (b : Byte) : (b.setWidth Config.addrWidth).toNat = b.toNat := by
  have := b.isLt
  simp

/-- A read at a stack address. -/
@[simp] theorem memoryAccess_read_byte (s : State) (b : Byte) :
    memoryAccess s { addr := b.setWidth Config.addrWidth } = .ok (s, s.mem.read b.toNat) := by
  have := b.isLt
  rw [memoryAccess_read_inside s (by rw [toNat_byteAddr]; omega), toNat_byteAddr]

/-- A write at a stack address. -/
@[simp] theorem memoryAccess_write_byte (s : State) (b : Byte) (v : BitVec 9) :
    memoryAccess s { addr := b.setWidth Config.addrWidth, we := true, wdata := v } =
      .ok (s.setMem (s.mem.write b.toNat (v.setWidth 8)), s.mem.read b.toNat) := by
  simp only [memoryAccess, memoryArray, toNat_byteAddr, if_pos (show b.toNat < Config.memSize from b.isLt)]; rfl

/-! ## `program_counter` -/

/-- A sequential advance: `pc` is at most 255 when a step reaches it, and the sum is exact. -/
theorem programCounter_advance {pc : Nat} (h : pc ≤ 255) (n : BitVec 2) :
    (programCounter (BitVec.ofNat Config.addrWidth pc) { advance := n }).toNat = pc + n.toNat := by
  simp [programCounter, Config.addrWidth]; omega

@[simp] theorem programCounter_load (pc : Addr) (b : Byte) :
    (programCounter pc { load := true, target := b }).toNat = b.toNat :=
  toNat_byteAddr b

@[simp] theorem programCounter_hold (pc : Addr) : programCounter pc { hold := true } = pc := rfl

/-! ## `stack_pointer_logic`, and the push and pop events -/

/-- The push data that memory stores of CALL's 9 bits is `trunc8(pc + 2)` (spec/20_memory.md R34). -/
theorem setWidth_returnAddress (pc : Nat) (xa : Byte) :
    (pushData true (BitVec.ofNat Config.addrWidth pc) xa).setWidth 8 = trunc8 (pc + 2) := by
  apply BitVec.eq_of_toNat_eq
  simp [pushData, trunc8]

@[simp] theorem setWidth_pushedRegister (pc : Addr) (xa : Byte) : (pushData false pc xa).setWidth 8 = xa := by
  simp [pushData]

@[simp] theorem readSp_eq (s : State) : readSp s = .ok s.sp := by
  simp only [readSp, registerAccess_read]; rfl

@[simp] theorem updateSp_eq (s : State) (o : StackOut) : updateSp s o = .ok (s.setReg Config.spIndex o.newSp) := by
  simp only [updateSp, registerAccess_write]; rfl

@[simp] theorem popSp_eq (s : State) : popSp s = .ok s.incSp := by
  simp only [popSp, readSp_eq, ok_bind, updateSp_eq]; rfl

@[simp] theorem popData_eq (s : State) : popData s = .ok (s.mem.read s.sp.toNat) := by
  simp only [popData, readSp_eq, ok_bind, stackPointerLogic, Bool.false_eq_true, if_false, memoryAccess_read_byte]; rfl

/-- PUSH and CALL of a register that exists. -/
@[simp] theorem pushEvents_regOperand (s : State) (call : Bool) (pc : Addr) (n : Fin Config.nRegs) :
    pushEvents s call pc (regOperand n) =
      .ok (s.decSp.setMem (s.mem.write (s.sp - 1).toNat ((pushData call pc (s.decSp.reg n)).setWidth 8)),
        s.decSp.reg n) := by
  simp only [pushEvents, registerAccess_read, readSp_eq, ok_bind, updateSp_eq, stackPointerLogic, if_true,
    memoryAccess_write_byte]
  rfl

theorem pushEvents_invalid (s : State) (call : Bool) (pc : Addr) {a : Byte} (h : 7 < a.toNat) :
    pushEvents s call pc a = .error (.invalidRegister a) := by
  rw [pushEvents, registerAccess_read_invalid s h, error_bind]

/-! ## `instruction_decoder` and `alu` -/

/-- spec/41_alu.md R86: the decoder only ever produces the selectors 0 and 2, and 2 for MUL alone. -/
theorem instructionDecoder_op (opcode : Byte) :
    (instructionDecoder opcode).op = if kindOf opcode = .mul then 2#3 else 0#3 := by
  rw [instructionDecoder]
  cases kindOf opcode <;> rfl

/-- MUL and ADD of registers that exist, for a selector that names an operation other than DIV. -/
theorem aluEvents_regOperand (s : State) {op : BitVec 3} {f : Byte → Byte → Byte}
    (h : ∀ a b, watchAlu ⟨op, a, b⟩ = .ok (f a b)) (n k : Fin Config.nRegs) :
    aluEvents s op (regOperand n) (regOperand k) = .ok (s.setReg n (f (s.reg n) (s.reg k))) := by
  simp only [aluEvents, registerAccess_readBoth, ok_bind, h, registerAccess_write]; rfl

@[simp] theorem watchAlu_add (a b : Byte) : watchAlu ⟨0#3, a, b⟩ = .ok (aluResult .add a b) := rfl
@[simp] theorem watchAlu_mul (a b : Byte) : watchAlu ⟨2#3, a, b⟩ = .ok (aluResult .mul a b) := rfl

/-- `fetch_unit` sees of the ALU's lines the fault that `alu` gives, for every selector. -/
theorem watchAlu_eq (op : BitVec 3) (a b : Byte) : watchAlu ⟨op, a, b⟩ = alu op a b := by
  simp only [watchAlu, aluBlock, alu, faultUnsup]
  cases h : aluOp op with
  | none => rfl
  | some o =>
    by_cases hd : faultDiv0 op b = true
    · simp only [hd, if_true]; rfl
    · simp only [hd]; rfl

/-! ## `fetch_unit` -/

@[simp] theorem fetchUnit_fault (r : Option Fault) (f : Fault) (halt : Bool) :
    fetchUnit ⟨.running, r⟩ (some f) halt = ⟨.faulted, some f⟩ := rfl
@[simp] theorem fetchUnit_halt (r : Option Fault) : fetchUnit ⟨.running, r⟩ none true = ⟨.halted, r⟩ := rfl
@[simp] theorem fetchUnit_continue (r : Option Fault) : fetchUnit ⟨.running, r⟩ none false = ⟨.running, r⟩ := rfl

/-- spec/10_state.md R22: a stopped `fetch_unit` stays as it is, whatever its lines say. -/
theorem fetchUnit_stopped {q : FetchState} (h : q.runState ≠ .running) (line : Option Fault) (halt : Bool) :
    fetchUnit q line halt = q := by
  obtain ⟨r, f⟩ := q
  cases r <;> first | rfl | exact absurd rfl h

end Sys2Proof.Machine.Blocks
end

