-- ==== Sys2Proof/Laws/Decode.lean ====
section
/-! SUPPORT. What the decoder does for each kind of opcode byte. -/

namespace Sys2Proof

/-- spec/30_encoding.md R50: bits 7:6 of a byte, by its value. -/
theorem operandCount_eq (opcode : Byte) : operandCount opcode = opcode.toNat / 64 := by
  have := opcode.isLt
  simp only [operandCount, BitVec.extractLsb_toNat, Nat.shiftRight_eq_div_pow]
  omega

theorem operandCount_le (opcode : Byte) : operandCount opcode ≤ 3 := by
  have := opcode.isLt
  rw [operandCount_eq]
  omega

/-- spec/30_encoding.md R54: a byte that equals no row's opcode is unknown. -/
theorem kindOf_unknown {opcode : Byte}
    (h : opcode ∉ [(0x82 : Byte), 0x47, 0xA2, 0xA0, 0x45, 0x46, 0x50, 0x11, 0x01]) : kindOf opcode = .unknown := by
  simp only [List.mem_cons, List.not_mem_nil, or_false, not_or, ← beq_eq_false_iff_ne] at h
  obtain ⟨h1, h2, h3, h4, h5, h6, h7, h8, h9⟩ := h
  simp only [kindOf, opcodeTable, List.lookup, h1, h2, h3, h4, h5, h6, h7, h8, h9, Option.getD_none]

/-- spec/30_encoding.md R54, R55: the nine known bytes; any other byte is unknown. -/
theorem kindOf_cases (opcode : Byte) :
    (opcode = 0x82 ∧ kindOf opcode = .ldi) ∨ (opcode = 0x47 ∧ kindOf opcode = .prn) ∨
    (opcode = 0xA2 ∧ kindOf opcode = .mul) ∨ (opcode = 0xA0 ∧ kindOf opcode = .add) ∨
    (opcode = 0x45 ∧ kindOf opcode = .push) ∨ (opcode = 0x46 ∧ kindOf opcode = .pop) ∨
    (opcode = 0x50 ∧ kindOf opcode = .call) ∨ (opcode = 0x11 ∧ kindOf opcode = .ret) ∨
    (opcode = 0x01 ∧ kindOf opcode = .hlt) ∨
    (opcode ∉ [(0x82 : Byte), 0x47, 0xA2, 0xA0, 0x45, 0x46, 0x50, 0x11, 0x01] ∧ kindOf opcode = .unknown) := by
  by_cases h : opcode ∈ [(0x82 : Byte), 0x47, 0xA2, 0xA0, 0x45, 0x46, 0x50, 0x11, 0x01]
  · simp only [List.mem_cons, List.not_mem_nil, or_false] at h
    rcases h with rfl | rfl | rfl | rfl | rfl | rfl | rfl | rfl | rfl
    · exact .inl ⟨rfl, rfl⟩
    · exact .inr <| .inl ⟨rfl, rfl⟩
    · exact .inr <| .inr <| .inl ⟨rfl, rfl⟩
    · exact .inr <| .inr <| .inr <| .inl ⟨rfl, rfl⟩
    · exact .inr <| .inr <| .inr <| .inr <| .inl ⟨rfl, rfl⟩
    · exact .inr <| .inr <| .inr <| .inr <| .inr <| .inl ⟨rfl, rfl⟩
    · exact .inr <| .inr <| .inr <| .inr <| .inr <| .inr <| .inl ⟨rfl, rfl⟩
    · exact .inr <| .inr <| .inr <| .inr <| .inr <| .inr <| .inr <| .inl ⟨rfl, rfl⟩
    · exact .inr <| .inr <| .inr <| .inr <| .inr <| .inr <| .inr <| .inr <| .inl ⟨rfl, rfl⟩
  · simp only [h, kindOf_unknown h, not_false_eq_true, and_self, or_true]

/-- spec/30_encoding.md R56: a known opcode has operand count 0, 1 or 2. -/
theorem kindOf_unknown_of_count {opcode : Byte} (h : operandCount opcode = 3) : kindOf opcode = .unknown := by
  refine kindOf_unknown fun hm => ?_
  simp only [List.mem_cons, List.not_mem_nil, or_false] at hm
  rcases hm with rfl | rfl | rfl | rfl | rfl | rfl | rfl | rfl | rfl <;> exact absurd h (by decide)

/-! What it takes to build an instruction: its format's number of operands (spec/30_encoding.md R51). -/

theorem formatZ_eq_some {f : Instr} {l : List Byte} {i : Instr} : formatZ f l = some i ↔ l = [] ∧ i = f := by
  constructor
  · intro h
    rcases l with _ | ⟨a, l⟩ <;> cases h
    exact ⟨rfl, rfl⟩
  · rintro ⟨rfl, rfl⟩; rfl

theorem formatR_eq_some {f : Byte → Instr} {l : List Byte} {i : Instr} :
    formatR f l = some i ↔ ∃ a, l = [a] ∧ i = f a := by
  constructor
  · intro h
    rcases l with _ | ⟨a, _ | ⟨b, l⟩⟩ <;> cases h
    exact ⟨a, rfl, rfl⟩
  · rintro ⟨a, rfl, rfl⟩; rfl

theorem formatRR_eq_some {f : Byte → Byte → Instr} {l : List Byte} {i : Instr} :
    formatRR f l = some i ↔ ∃ a b, l = [a, b] ∧ i = f a b := by
  constructor
  · intro h
    rcases l with _ | ⟨a, _ | ⟨b, _ | ⟨c, l⟩⟩⟩ <;> cases h
    exact ⟨a, b, rfl, rfl⟩
  · rintro ⟨a, b, rfl, rfl⟩; rfl

@[simp] theorem Kind.build_ldi : Kind.build .ldi = formatRR .ldi := rfl
@[simp] theorem Kind.build_prn : Kind.build .prn = formatR .prn := rfl
@[simp] theorem Kind.build_mul : Kind.build .mul = formatRR .mul := rfl
@[simp] theorem Kind.build_add : Kind.build .add = formatRR .add := rfl
@[simp] theorem Kind.build_push : Kind.build .push = formatR .push := rfl
@[simp] theorem Kind.build_pop : Kind.build .pop = formatR .pop := rfl
@[simp] theorem Kind.build_call : Kind.build .call = formatR .call := rfl
@[simp] theorem Kind.build_ret : Kind.build .ret = formatZ .ret := rfl
@[simp] theorem Kind.build_hlt : Kind.build .hlt = formatZ .hlt := rfl

/-- The decoder on a list that has an opcode byte. -/
theorem decode_cons (opcode : Byte) (rest : List Byte) :
    decode (opcode :: rest) =
      if operandCount opcode = 3 then .error (.unknownInstruction opcode)
      else if rest.length < operandCount opcode then .error (.operandMissing opcode)
      else
        match (kindOf opcode).build (rest.take (operandCount opcode)) with
        | some i => .ok (i, rest.drop (operandCount opcode))
        | none => .error (.unknownInstruction opcode) := rfl

/-- An unknown kind builds nothing. -/
@[simp] theorem Kind.build_unknown (l : List Byte) : Kind.build .unknown l = none := rfl

end Sys2Proof
end

