-- ==== Sys2Proof/Laws/PerInstr.lean ====
section
/-! SUPPORT. Facts about every instruction as syntax, one lemma per constructor. -/

namespace Sys2Proof.Laws.EncodedLength

/-- spec/30_encoding.md R50: an instruction's first byte tells how many operand bytes follow it, at most two. -/
def Statement (i : Instr) : Prop :=
  ∃ opcode operands, encode i = opcode :: operands ∧ operands.length = operandCount opcode ∧ operandCount opcode ≤ 2

theorem ldi (a b : Byte) : Statement (.ldi a b) := ⟨0x82, [a, b], rfl, rfl, by decide⟩
theorem prn (a : Byte) : Statement (.prn a) := ⟨0x47, [a], rfl, rfl, by decide⟩
theorem mul (a b : Byte) : Statement (.mul a b) := ⟨0xA2, [a, b], rfl, rfl, by decide⟩
theorem add (a b : Byte) : Statement (.add a b) := ⟨0xA0, [a, b], rfl, rfl, by decide⟩
theorem push (a : Byte) : Statement (.push a) := ⟨0x45, [a], rfl, rfl, by decide⟩
theorem pop (a : Byte) : Statement (.pop a) := ⟨0x46, [a], rfl, rfl, by decide⟩
theorem call (a : Byte) : Statement (.call a) := ⟨0x50, [a], rfl, rfl, by decide⟩
theorem ret : Statement .ret := ⟨0x11, [], rfl, rfl, by decide⟩
theorem hlt : Statement .hlt := ⟨0x01, [], rfl, rfl, by decide⟩

end Sys2Proof.Laws.EncodedLength
end

