-- ==== Sys2Proof/Laws/Step.lean ====
section
/-! SUPPORT. Everything the common fetch and the step can do. -/

namespace Sys2Proof.Machine

/-! ## Fetch -/

/-- Operand bytes inside the address space are read in rising order. -/
theorem State.readBytes_inside (s : State) {addr n : Nat} (h : addr + n ≤ 256) :
    s.readBytes addr n = .ok ((List.range' addr n).map s.mem.read) := by
  induction n generalizing addr with
  | zero => rfl
  | succ n ih =>
    rw [State.readBytes, s.memRead_inside (by omega), ok_bind, ih (by omega)]
    rfl

/-- Operand bytes that run past the top of memory fault at address 256. -/
theorem State.readBytes_outside (s : State) {addr n : Nat} (ha : addr ≤ 256) (h : 256 < addr + n) :
    s.readBytes addr n = .error (.addressOutOfRange 256) := by
  induction n generalizing addr with
  | zero => omega
  | succ n ih =>
    rw [State.readBytes]
    by_cases hb : addr = 256
    · rw [s.memRead_outside (by omega), error_bind, hb]
    · rw [s.memRead_inside (by omega), ok_bind, ih (by omega) (by omega)]
      rfl

/-- spec/40_fetch_decode_execute.md R70: the opcode fetch above address 255. -/
theorem State.fetchInstr_outside (s : State) (h : 255 < s.pc) :
    s.fetchInstr = .error (.addressOutOfRange s.pc) := by
  rw [State.fetchInstr, State.fetchBytes, s.memRead_outside h]; rfl

/-- spec/40_fetch_decode_execute.md R71: an opcode with operand count 3. -/
theorem State.fetchInstr_count3 (s : State) (h : s.pc ≤ 255) (hc : operandCount (s.mem.read s.pc) = 3) :
    s.fetchInstr = .error (.unknownInstruction (s.mem.read s.pc)) := by
  rw [State.fetchInstr, State.fetchBytes, s.memRead_inside h, ok_bind, if_pos hc]; rfl

/-- spec/40_fetch_decode_execute.md R71: an operand byte above address 255. -/
theorem State.fetchInstr_operand_outside (s : State) (h : s.pc ≤ 255) (hc : operandCount (s.mem.read s.pc) ≠ 3)
    (ho : 255 < s.pc + operandCount (s.mem.read s.pc)) : s.fetchInstr = .error (.addressOutOfRange 256) := by
  rw [State.fetchInstr, State.fetchBytes, s.memRead_inside h, ok_bind, if_neg hc,
    s.readBytes_outside (by omega) (by omega)]
  rfl

/-- spec/40_fetch_decode_execute.md R71, R72: opcode and operands inside memory are looked up. -/
theorem State.fetchInstr_inside (s : State) (hc : operandCount (s.mem.read s.pc) ≠ 3)
    (ho : s.pc + operandCount (s.mem.read s.pc) ≤ 255) :
    s.fetchInstr =
      match (kindOf (s.mem.read s.pc)).build
        ((List.range' (s.pc + 1) (operandCount (s.mem.read s.pc))).map s.mem.read) with
      | some i => .ok i
      | none => .error (.unknownInstruction (s.mem.read s.pc)) := by
  rw [State.fetchInstr, State.fetchBytes, s.memRead_inside (by omega), ok_bind, if_neg hc,
    s.readBytes_inside (by omega)]
  simp only [ok_bind, pure_eq_ok, decode, if_neg hc, List.length_map, List.length_range', lt_irrefl, if_false,
    List.take_of_length_le, le_refl]
  cases (kindOf (s.mem.read s.pc)).build
    ((List.range' (s.pc + 1) (operandCount (s.mem.read s.pc))).map s.mem.read) <;> rfl

/-! ## The step -/

/-- A step while RUNNING executes the fetched instruction. -/
theorem step_fetched {s : State} {i : Instr} (hs : s.runState = .running) (h : s.fetchInstr = .ok i) :
    step s = exec i s := by
  rw [step, hs]; simp only [h]

/-- A step while RUNNING whose fetch faults enters the fault. -/
theorem step_fetch_fault {s : State} {f : Fault} (hs : s.runState = .running) (h : s.fetchInstr = .error f) :
    step s = .next (s.raise f) := by
  rw [step, hs]; simp only [h]

/-- Everything a step can do. -/
theorem step_cases {s t : State} (h : step s = .next t) :
    (s.runState ≠ .running ∧ t = s) ∨
    (s.runState = .running ∧ ∃ i, s.fetchInstr = .ok i ∧ exec i s = .next t) ∨
    (s.runState = .running ∧ ∃ f, s.fetchInstr = .error f ∧ t = s.raise f) := by
  cases hs : s.runState with
  | running =>
    cases hf : s.fetchInstr with
    | ok i => exact .inr (.inl ⟨rfl, i, rfl, by rw [← step_fetched hs hf, h]⟩)
    | error f =>
      rw [step_fetch_fault hs hf] at h
      cases h
      exact .inr (.inr ⟨rfl, f, rfl, rfl⟩)
  | halted => rw [step, hs] at h; cases h; exact .inl ⟨by simp, rfl⟩
  | faulted => rw [step, hs] at h; cases h; exact .inl ⟨by simp, rfl⟩

/-! ## The run (spec/40_fetch_decode_execute.md R78) -/

/-- A run of a core whose first step answers a next state goes on from there. -/
theorem run_of_step (M : Host.Core) (k : Nat) {s t : M.State} (h : M.step s = .next t) :
    M.run (k + 1) s = M.run k t := by
  simp only [Host.Core.run, h]

/-- The same of this core, in terms of `step`. -/
theorem run_succ (k : Nat) {s t : State} (h : step s = .next t) :
    Sys2Proof.core.run (k + 1) s = Sys2Proof.core.run k t :=
  run_of_step Sys2Proof.core k h

theorem run_zero (s : State) : Sys2Proof.core.run 0 s = .next s := rfl

end Sys2Proof.Machine
end

