-- ==== Sys2Proof/Tests/Slice0.lean ====
section
/-! SUPPORT. The author's own tests. Expected results are those of spec/95_test_vectors.md (V<n>, S<n>), cited at each
test; the last part holds one state or operand that meets the hypotheses of each statement, boundary values
included. -/

namespace Sys2Proof.Tests

open Sys2Proof.Machine

/-- The reset state with `pc` moved and the given bytes placed there. -/
def placed (pc : Nat) (bytes : List Byte) : State :=
  { State.reset with pc := pc, mem := Memory.writeBytes [] pc bytes }

/-- The reset state with one byte stored at an address beside the placed bytes. -/
def poke (s : State) (a : Nat) (v : Byte) : State := s.setMem (s.mem.write a v)

/-- A view of the state after one step. -/
def afterStep {α : Type} (view : State → α) (s : State) : Option α :=
  match step s with
  | .next t => some (view t)
  | .fault _ => none
  | .refused _ => none

/-- Run state and fault record. -/
def ending (s : State) : RunState × Option Fault := (s.runState, s.fault)

/-! ## Well-formedness: one ill-formed term for each check (spec/30_encoding.md R62) -/

theorem test_wellFormed_ldi : (Instr.ldi 8 0).wellFormed = false ∧ (Instr.ldi 7 255).wellFormed = true := by decide
theorem test_wellFormed_prn : (Instr.prn 8).wellFormed = false := by decide
theorem test_wellFormed_mul_a : (Instr.mul 8 0).wellFormed = false := by decide
theorem test_wellFormed_mul_b : (Instr.mul 0 255).wellFormed = false := by decide
theorem test_wellFormed_add_a : (Instr.add 128 0).wellFormed = false := by decide
theorem test_wellFormed_add_b : (Instr.add 0 8).wellFormed = false := by decide
theorem test_wellFormed_push : (Instr.push 16).wellFormed = false := by decide
theorem test_wellFormed_pop : (Instr.pop 8).wellFormed = false := by decide
theorem test_wellFormed_call : (Instr.call 255).wellFormed = false := by decide

/-! ## Decoding: the words of spec/30_encoding.md R55 (S1), bit by bit, with operands that would show a swap -/

theorem test_decode_ldi : decode [0b10000010, 0b00000011, 0b11111111] = .ok (.ldi 3 255, []) := rfl
theorem test_decode_prn : decode [0b01000111, 0b00000101, 0b00000001] = .ok (.prn 5, [1]) := rfl
theorem test_decode_mul : decode [0b10100010, 0b00000001, 0b00000010] = .ok (.mul 1 2, []) := rfl
theorem test_decode_add : decode [0b10100000, 0b00000001, 0b00000010] = .ok (.add 1 2, []) := rfl
theorem test_decode_push : decode [0b01000101, 0b00000110] = .ok (.push 6, []) := rfl
theorem test_decode_pop : decode [0b01000110, 0b00000110] = .ok (.pop 6, []) := rfl
theorem test_decode_call : decode [0b01010000, 0b00000100] = .ok (.call 4, []) := rfl
theorem test_decode_ret : decode [0b00010001] = .ok (.ret, []) := rfl
theorem test_decode_hlt : decode [0b00000001] = .ok (.hlt, []) := rfl

/-- V4: the neighbours of known opcodes, 0x00 and operand count 3. -/
theorem test_decoder_unknown :
    [(0x00 : Byte), 0x02, 0x10, 0x44, 0x48, 0x51, 0x83, 0xA1, 0xA3, 0xC0, 0xFF].map kindOf =
      List.replicate 11 Kind.unknown := by decide

/-- R56: nine known bytes among the 256. -/
theorem test_decoder_known_count :
    ((List.range 256).filter fun v => kindOf (trunc8 v) ≠ .unknown) =
      [0x01, 0x11, 0x45, 0x46, 0x47, 0x50, 0x82, 0xA0, 0xA2] := by decide +kernel

/-- The opcode table's numbering: the first byte is bits 7:0, the operands follow; absent operand words are zero. -/
theorem test_tableWord : decodeTableWord 24 0x080082 = some (.ldi 0 8) ∧ decodeTableWord 8 0xA2 = some (.mul 0 0) ∧
    decodeTableWord 8 0x00 = none := by decide

/-- R60: the document's two listings, S7 and S8. -/
theorem test_assembly : assembly (.ldi 0 8) = some "LDI R0,8" ∧ assembly (.mul 0 1) = some "MUL R0,R1" ∧
    assembly (.prn 0) = some "PRN R0" ∧ assembly .hlt = some "HLT" ∧ assembly (.prn 8) = none := by decide

/-! ## One step of each instruction -/

/-- V6, row 1. -/
theorem test_ldi : afterStep (fun t => (t.reg 0, t.pc)) (placed 0 [0x82, 0x00, 0x08]) = some (8, 3) := by decide
/-- V6, row 3: R7 is an ordinary destination. -/
theorem test_ldi_sp : afterStep (fun t => (t.sp, t.pc)) (placed 0 [0x82, 0x07, 0x80]) = some (0x80, 3) := by decide
/-- V6, row 7. -/
theorem test_prn : afterStep (fun t => (t.out, t.pc)) (placed 0 [0x47, 0x07]) = some ([244], 2) := by decide
/-- V6, row 8. -/
theorem test_prn_invalid : afterStep (fun t => (ending t, t.out, t.pc)) (placed 0 [0x47, 0x08]) =
    some ((.faulted, some (.invalidRegister 8)), [], 0) := by decide
/-- V7, row 3: the high byte of the product is lost. -/
theorem test_mul : afterStep (fun t => (t.reg 0, t.reg 1, t.pc))
    (((placed 0 [0xA2, 0x00, 0x01]).setReg 0 0xFF).setReg 1 0xFF) = some (0x01, 0xFF, 3) := by decide
/-- V7, row 4: of two bad indices the first is reported. -/
theorem test_mul_invalid : afterStep ending (placed 0 [0xA2, 0x09, 0x0C]) =
    some (.faulted, some (.invalidRegister 9)) := by decide
/-- V7, row 6. -/
theorem test_add : afterStep (fun t => (t.reg 0, t.reg 2, t.pc))
    (((placed 0 [0xA0, 0x00, 0x02]).setReg 0 0xFA).setReg 2 0x0A) = some (0x04, 0x0A, 3) := by decide
/-- V7, row 8: arithmetic on R7. -/
theorem test_add_sp : afterStep State.sp ((placed 0 [0xA0, 0x07, 0x00]).setReg 0 0x04) = some 0xF8 := by decide
/-- V8, row 2: PUSH R7 stores the decremented SP. -/
theorem test_push_sp : afterStep (fun t => (t.sp, t.mem.read 0xF3, t.pc)) (placed 0 [0x45, 0x07]) =
    some (0xF3, 0xF3, 2) := by decide
/-- V8, row 3: SP wraps. -/
theorem test_push_wraps : afterStep (fun t => (t.sp, t.mem.read 0xFF, t.pc))
    (((placed 0 [0x45, 0x00]).setReg 7 0x00).setReg 0 0xAB) = some (0xFF, 0xAB, 2) := by decide
/-- V8, row 8: POP R7 loads, then increments. -/
theorem test_pop_sp : afterStep (fun t => (t.sp, t.pc))
    (poke ((placed 0 [0x46, 0x07]).setReg 7 0xF3) 0xF3 0x20) = some (0x21, 2) := by decide
/-- V8, row 6: the popped cell keeps its content. -/
theorem test_pop : afterStep (fun t => (t.reg 0, t.sp, t.mem.read 0xF2, t.pc))
    (poke ((placed 0 [0x46, 0x00]).setReg 7 0xF2) 0xF2 0x02) = some (0x02, 0xF3, 0x02, 2) := by decide
/-- V9, row 2: CALL R7 jumps to the decremented SP. -/
theorem test_call_sp : afterStep (fun t => (t.sp, t.mem.read 0xF3, t.pc)) (placed 0 [0x50, 0x07]) =
    some (0xF3, 0x02, 243) := by decide
/-- V9, row 3: the return address 256 is stored as 0. -/
theorem test_call_at_254 : afterStep (fun t => (t.sp, t.mem.read 0xF2, t.pc))
    (((placed 254 [0x50, 0x01]).setReg 1 0x40).setReg 7 0xF3) = some (0xF2, 0x00, 64) := by decide
/-- V9, row 5. -/
theorem test_ret : afterStep (fun t => (t.pc, t.sp)) (poke ((placed 17 [0x11]).setReg 7 0xF3) 0xF3 0x08) =
    some (8, 0xF4) := by decide
/-- V9, row 7: SP wraps. -/
theorem test_ret_wraps : afterStep (fun t => (t.pc, t.sp)) ((placed 0 [0x11]).setReg 7 0xFF) = some (0, 0x00) := by
  decide
/-- V10, row 1. -/
theorem test_hlt : afterStep (fun t => (ending t, t.pc)) (placed 5 [0x01]) = some ((.halted, none), 5) := by decide

/-! ## Fetch and faults (V5, V10) -/

/-- V5, row 1. -/
theorem test_fetch_opcode_outside : afterStep (fun t => (ending t, t.pc)) (placed 256 []) =
    some ((.faulted, some (.addressOutOfRange 256)), 256) := by decide
/-- V5, row 2. -/
theorem test_fetch_a_outside : afterStep (fun t => (ending t, t.pc)) (placed 255 [0x47]) =
    some ((.faulted, some (.addressOutOfRange 256)), 255) := by decide
/-- V5, row 4: operands are fetched before the lookup. -/
theorem test_fetch_b_outside : afterStep (fun t => (ending t, t.pc)) (placed 254 [0x80, 0x00]) =
    some ((.faulted, some (.addressOutOfRange 256)), 254) := by decide
/-- V5, row 5: with operand count 3 no operand is fetched. -/
theorem test_fetch_count3 : afterStep ending (placed 255 [0xC0]) =
    some (.faulted, some (.unknownInstruction 0xC0)) := by decide
/-- V5, row 8: `pc` is not reduced modulo 256. -/
theorem test_pc_256 : afterStep (fun t => (t.reg 0, t.pc, t.runState)) (placed 253 [0x82, 0x00, 0x09]) =
    some (0x09, 256, .running) := by decide
/-- V10, row 3. -/
theorem test_unknown : afterStep (fun t => (ending t, t.pc)) (placed 0 [0xA1, 0x00, 0x01]) =
    some ((.faulted, some (.unknownInstruction 0xA1)), 0) := by decide
/-- V10, row 4. -/
theorem test_stopped : afterStep id (placed 5 [0x82]).halt = some (placed 5 [0x82]).halt := by decide

/-! ## Blocks -/

/-- V3: values of the ALU. -/
theorem test_alu : (alu 0 100 27).toOption = some 127 ∧ (alu 1 5 10).toOption = some 251 ∧
    (alu 2 15 17).toOption = some 255 ∧ (alu 3 255 2).toOption = some 127 ∧ (alu 3 5 10).toOption = some 0 := by decide
/-- V3: the two faults of the ALU. -/
theorem test_alu_faults : alu 3 0 0 = .error .divisionByZero ∧ alu 7 1 1 = .error (.unsupportedOperation 7) :=
  ⟨rfl, rfl⟩
/-- V1: 0x1FF is stored as 0xFF. -/
theorem test_writeReg : ((State.reset.writeReg 3 0x1FF).toOption.map fun t => (t.reg 3, t.reg 2)) = some (0xFF, 0) := by
  decide
/-- V2: 256 is stored as 0, and address 256 is no cell. -/
theorem test_memWrite : ((poke State.reset 0xF3 7).memWrite 0xF3 256).toOption = some State.reset ∧
    (State.reset.memWrite 256 1).toOption = none := by decide
/-- R120: the codes and information values. -/
theorem test_faultCode : faultCode none = 0 ∧ faultCode (some (.addressOutOfRange 256)) = 1 ∧
    faultInfo (some (.addressOutOfRange 256)) = some 256 ∧ faultCode (some (.unknownInstruction 0xA1)) = 5 ∧
    faultInfo (some (.unknownInstruction 0xA1)) = some 0xA1 := by decide
/-- R24, S8: the lines shown. -/
theorem test_outputLines : ((State.reset.emit 8).emit 30).outputLines = [[8], [3, 0]] ∧
    decimalDigits 255 = [2, 5, 5] ∧ decimalDigits 0 = [0] := by decide
/-- The recommended instantiation of the OPEN parameters is `State.reset`. -/
theorem test_reset_is_start : State.start (Vector.replicate 7 0) (Vector.replicate 256 0) = State.reset := by
  decide +kernel
/-- The step from reset with nothing placed: 0x00 is no instruction. -/
theorem test_reset_step : afterStep ending State.reset = some (.faulted, some (.unknownInstruction 0)) := by decide
/-- The instruction that `withFetchWord` places is the next one run. -/
theorem test_withFetchWord : afterStep (fun t => (t.reg 3, t.pc)) (State.reset.withFetchWord 24 0xFF0382) =
    some (0xFF, 3) := by decide
/-- The blocks at their ports make the same step. -/
theorem test_blockStep : afterStep id (placed 0 [0x45, 0x07]) = some (Blocks.blockStep (placed 0 [0x45, 0x07])) := by
  decide

/-- R21 at the block's ports: SP 0 pushes at 255; SP 255 pops there and wraps. -/
theorem test_stackPointerLogic :
    Blocks.stackPointerLogic { push := true, x7 := 0, pushData := 0x100 } = ⟨255, 255, 0x100, 0⟩ ∧
    Blocks.stackPointerLogic { pop := true, x7 := 255, rdata := 9 } = ⟨0, 255, 0, 9⟩ := by decide
/-- R27, R78: the decoder's `halt` line. -/
theorem test_haltLine : (Blocks.instructionDecoder 0x01).halt = true ∧ (Blocks.instructionDecoder 0x11).halt = false ∧
    (Blocks.fetchUnit ⟨.running, none⟩ none true).report = (.halted, 0, none) ∧
    (Blocks.fetchUnit ⟨.running, none⟩ (some (.invalidRegister 8)) true).report = (.faulted, 2, some 8) := by decide
/-- R86: the decoder's selectors. -/
theorem test_decoder_op : (Blocks.instructionDecoder 0xA0).op = 0 ∧ (Blocks.instructionDecoder 0xA2).op = 2 := by decide
/-- POP R7 at the blocks: SP becomes the loaded byte plus 1 (R106). -/
theorem test_blockStep_popR7 : ((Blocks.blockStep ((placed 0 [0x46, 0x07, 0x2A]).setReg 7 2)).reg 7) = 0x2B := by decide

/-! ## Witnesses: the hypotheses of the statements can be met -/

theorem witness_EveryOtherByteListIsRejectedByName :
    ((0x7F : Byte) ∉ [(0x82 : Byte), 0x47, 0xA2, 0xA0, 0x45, 0x46, 0x50, 0x11, 0x01] ∧
      (0x7F : Byte).toNat / 64 ≤ [(0 : Byte)].length) ∧
    ((0xC0 : Byte) ∉ [(0x82 : Byte), 0x47, 0xA2, 0xA0, 0x45, 0x46, 0x50, 0x11, 0x01] ∧ 0xC0 ≤ (0xC0 : Byte).toNat) ∧
    ((0xBF : Byte).toNat < 0xC0 ∧ [(0 : Byte)].length < (0xBF : Byte).toNat / 64) := by decide

theorem witness_OpcodeBytesDecodeToTheirInstructions :
    decode ((0x45 : Byte) :: [7]) = .ok (.push 7, []) := rfl

theorem witness_CanonicalMemoriesThatReadEqualAreEqual :
    Memory.wf [(0, 1), (255, 2)] = true ∧ ∀ a, Memory.read [(0, 1), (255, 2)] a = Memory.read [(0, 1), (255, 2)] a :=
  ⟨by decide, fun _ => rfl⟩

theorem witness_RegisterFileReadsAndWrites :
    7 < (8 : Byte).toNat ∧ (7 : Byte).toNat = (7 : Fin 8).val ∧ (0 : Byte).toNat = (0 : Fin 8).val := by decide

theorem witness_MemoryReadsBackWhatWasWritten : State.reset.mem.wf = true ∧ 255 < 256 ∧ 255 ≤ 255 := by decide

theorem witness_AluDivisionAndUnsupportedSelectors : (1 : Byte) ≠ 0 ∧ 4 ≤ (4 : BitVec 3).toNat ∧ 4 ≤ (7 : BitVec 3).toNat := by
  decide

/-- The clauses about an index above 7 of LDI, PRN, MUL, ADD, PUSH, POP and CALL, at both ends. -/
theorem witness_invalid_index : 7 < (8 : Byte).toNat ∧ 7 < (255 : Byte).toNat := by decide
theorem witness_LdiLoadsTheImmediate : 7 < (8 : Byte).toNat := by decide
theorem witness_PrnEmitsTheRegister : 7 < (8 : Byte).toNat := by decide
theorem witness_MulMultipliesModulo256 : 7 < (8 : Byte).toNat ∧ (regOperand 7).toNat = 7 := by decide
theorem witness_AddAddsModulo256 : 7 < (8 : Byte).toNat ∧ (regOperand 0).toNat = 0 := by decide

theorem witness_PushStoresAtTheDecrementedSp : (State.reset.setReg 7 0).mem.wf = true ∧ (State.reset.setReg 7 0).pushCell = 255 ∧
    7 < (8 : Byte).toNat := by decide
theorem witness_PopLoadsAtSpThenIncrements : (6 : Fin 8) ≠ 7 ∧ (7 : Fin 8) = 7 ∧ 7 < (8 : Byte).toNat := by decide
theorem witness_CallPushesTheReturnAddressAndJumps : (placed 254 [0x50, 0x01]).mem.wf = true ∧ 7 < (8 : Byte).toNat := by
  decide

theorem witness_InvalidRegisterIsRaisedExactlyByBadIndices :
    (∃ r ∈ registerOperands (.mul 7 8), 7 < r.toNat) ∧ (∀ r ∈ registerOperands (.mul 7 0), r.toNat ≤ 7) ∧
    (∀ r ∈ registerOperands .ret, r.toNat ≤ 7) := by decide

theorem witness_ExecutionFaultsExactlyOnIllFormedInstructions : State.reset.runState = .running := rfl

theorem witness_RegistersOutsideTheWriteTableAreUnchanged :
    (∃ t, exec (.pop 0) State.reset = .next t) ∧ (6 : Fin 8).val ∉ registersWritten (.pop 0) :=
  ⟨⟨_, rfl⟩, by decide⟩

theorem witness_RegistersOutsideTheReadTableDoNotMatter :
    (0 : Fin 8).val ∉ registersRead (.pop 0) ∧ State.reset.runState = .running ∧
    (∃ t, exec (.pop 0) State.reset = .next t ∧ t.runState ≠ .faulted) ∧
    (∃ t, exec (.pop 0) { State.reset with x := State.reset.x.set (0 : Fin 8) 9 } = .next t) ∧
    (0 : Fin 8).val ∈ registersWritten (.pop 0) ∧ (1 : Fin 8).val ∉ registersWritten (.pop 0) :=
  ⟨by decide, rfl, ⟨_, rfl, by decide⟩, ⟨_, rfl⟩, by decide, by decide⟩

theorem witness_CellsOutsideTheStoreTableAreUnchanged :
    (∃ t, exec (.push 0) State.reset = .next t) ∧ 0xF4 ∉ cellsWritten State.reset (.push 0) :=
  ⟨⟨_, rfl⟩, by decide⟩

theorem witness_PcAfterEachInstruction :
    State.reset.runState = .running ∧ (∃ t, exec (.call 7) State.reset = .next t ∧ t.runState ≠ .faulted) ∧
    (∃ t, exec (.call 8) State.reset = .next t ∧ t.runState = .faulted) :=
  ⟨rfl, ⟨_, rfl, by decide⟩, ⟨_, rfl, rfl⟩⟩

theorem witness_StepRunsTheDecodedInstruction :
    (placed 254 [0x45, 0x08]).runState = .running ∧ decode (placed 254 [0x45, 0x08]).bytesAtPc = .ok (.push 8, []) :=
  ⟨rfl, rfl⟩

theorem witness_PlacedInstructionIsTheNextOneRun :
    (placed 255 []).mem.wf = true ∧ State.reset.mem.wf = true ∧ State.reset.pc ≤ 253 := by decide

theorem witness_StoppedCoreNeverChanges : State.reset.halt.runState ≠ .running ∧
    (State.reset.raise .divisionByZero).runState ≠ .running := by decide

theorem witness_RunningCoreContinuesHaltsOrFaults : State.reset.runState = .running := rfl

/-- One state for each position of spec/60_exceptions.md R128, and one without a fault. -/
theorem witness_StepReportsTheFirstFaultPrecisely :
    [placed 256 [], placed 255 [0xC0], placed 255 [0xBF], placed 254 [0x80, 0x00], placed 255 [0x3F],
      placed 252 [0xA2, 0x08, 0x08], placed 252 [0xA2, 0x07, 0x08], placed 253 [0xA2, 0x07, 0x07]].map State.firstFault =
      [some (.addressOutOfRange 256), some (.unknownInstruction 0xC0), some (.addressOutOfRange 256),
        some (.addressOutOfRange 256), some (.unknownInstruction 0x3F), some (.invalidRegister 8),
        some (.invalidRegister 8), none] := by decide

theorem witness_CoreHaltsExactlyOnTheHltOpcode : (placed 255 [0x01]).runState = .running ∧
    afterStep State.runState (placed 255 [0x01]) = some .halted := by decide

theorem witness_PcReaches256OnlySequentially : (placed 254 [0x45, 0x00]).pc ≤ 255 ∧
    afterStep State.pc (placed 254 [0x45, 0x00]) = some 256 := by decide

theorem witness_OutputOnlyGrows : ∃ t, Sys2Proof.core.run 1 (placed 0 [0x47, 0x07]) = .next t ∧ t.out = [244] :=
  ⟨_, rfl, by decide⟩

theorem witness_LoaderPlacesTheProgramAtAddressZero :
    (List.replicate 256 (1 : Byte)).length ≤ 256 ∧ 256 < (List.replicate 257 (1 : Byte)).length := by
  simp only [List.length_replicate]; decide

theorem witness_EveryStepKeepsTheInvariant : State.reset.Inv ∧ ∃ t, step State.reset = .next t := by
  refine ⟨⟨rfl, by decide, fun _ => rfl, fun h => ?_, fun h => ?_⟩, ⟨_, rfl⟩⟩ <;> cases h

/-- S4, and V8's last row is shut out: the pushed cell is none of the POP's bytes. -/
theorem witness_PushThenPopRestoresEveryRegister :
    let s := placed 252 [0x45, 0x07, 0x46, 0x07]
    s.runState = .running ∧ s.mem.wf = true ∧ s.pc ≤ 252 ∧ s.mem.read s.pc = 0x45 ∧
      s.mem.read (s.pc + 1) = regOperand 7 ∧ s.mem.read (s.pc + 2) = 0x46 ∧ s.mem.read (s.pc + 3) = regOperand 7 ∧
      s.pushCell ≠ s.pc + 2 ∧ s.pushCell ≠ s.pc + 3 := by decide

theorem witness_RetReturnsAfterTheCall :
    (placed 254 []).pc ≤ 254 ∧ (placed 254 []).mem.wf = true ∧
    ∃ t u : State, exec (.call (regOperand 1)) (placed 254 []) = .next t ∧ u.x[7] = t.x[7] ∧
      u.mem.read (placed 254 []).pushCell = t.mem.read (placed 254 []).pushCell ∧ u.pc ≠ t.pc :=
  ⟨by decide, by decide, _, (placed 7 []).setReg 7 0xF3, rfl, by decide, by decide, by decide⟩

/-- The shape of spec/95_test_vectors.md P7. -/
theorem witness_PushedOpcodeIsFetchedByTheNextStep :
    let s := ((placed 6 [0x45, 0x00, 0x47, 0x00]).setReg 7 9).setReg 0 1
    s.runState = .running ∧ s.mem.wf = true ∧ s.pc ≤ 253 ∧ (0 : Fin 8) ≠ 7 ∧ s.mem.read s.pc = 0x45 ∧
      s.mem.read (s.pc + 1) = regOperand 0 ∧ s.pushCell = s.pc + 2 ∧ s.x[(0 : Fin 8)] = 0x01 := by decide

theorem witness_UnreadCellsDoNotInfluenceAStep :
    let s := placed 0 [0x11]
    s.runState = .running ∧ s.mem.wf = true ∧ 0xF3 ≤ 255 ∧ 0xF3 ∉ s.cellsRead ∧ (∃ t, step s = .next t) ∧
      ∃ t, step { s with mem := s.mem.write 0xF3 5 } = .next t :=
  ⟨rfl, by decide, by decide, by decide, ⟨_, rfl⟩, ⟨_, rfl⟩⟩

/-- Operand count 3: the cell after the opcode is not read. -/
theorem witness_UnreadCellsDoNotInfluenceAStep_count3 :
    let s := placed 0 [0xC0]
    s.runState = .running ∧ s.mem.wf = true ∧ 1 ∉ s.cellsRead ∧ (∃ t, step s = .next t) ∧
      ∃ t, step { s with mem := s.mem.write 1 5 } = .next t :=
  ⟨rfl, by decide, by decide, ⟨_, rfl⟩, ⟨_, rfl⟩⟩

theorem witness_BlocksTogetherMakeTheStep : (placed 256 []).pc ≤ 256 ∧ State.reset.pc ≤ 256 := by decide

end Sys2Proof.Tests
end

namespace Sys2Proof

/-! ## The register file (spec/10_state.md R11, R12) -/

/-- R53: the operand byte that names a register is the only byte with that register's number. -/
theorem eq_regOperand_of_toNat_eq {i : Byte} {n : Fin Config.nRegs} (h : i.toNat = n.val) : i = regOperand n :=
  BitVec.eq_of_toNat_eq (h.trans (toNat_regOperand n).symm)

open Machine in
/-- Settles O6. A bad index is refused by `regIndex`; a good one is the operand byte of its register, and the write
is then `setReg`, whose frame is that of one cell of `x`. -/
theorem registerFileReadsAndWrites : Obligations.RegisterFileReadsAndWrites := by
  intro s i v
  refine ⟨fun h => ⟨s.readReg_invalid h, s.writeReg_invalid v h⟩, fun n hn => ?_⟩
  obtain rfl := eq_regOperand_of_toNat_eq hn
  exact ⟨s.readReg_regOperand n, s.setReg n (trunc8 v), trunc8 v, s.writeReg_regOperand n v,
    by rw [State.readReg_regOperand, State.reg_setReg_same], toNat_trunc8 v,
    fun _ hk => State.reg_setReg_other s n _ hk, rfl, rfl, rfl, rfl, rfl⟩

end Sys2Proof

namespace Sys2Proof

/-! ## The decoder (spec/30_encoding.md R50, R54, R55) -/

/-- The decoder reads an instruction exactly where the operand bytes that its opcode asks for stand and build it. An
operand count of 3 needs no clause: such an opcode is of unknown kind and builds nothing. -/
theorem decode_cons_eq_ok {opcode : Byte} {bytes rest : List Byte} {i : Instr} :
    decode (opcode :: bytes) = .ok (i, rest) ↔
      ∃ operands, bytes = operands ++ rest ∧ operands.length = operandCount opcode ∧
        (kindOf opcode).build operands = some i := by
  rw [decode_cons]
  constructor
  · intro h
    split_ifs at h with hcount hshort
    split at h
    next j hbuild =>
      cases h
      exact ⟨bytes.take (operandCount opcode), (List.take_append_drop ..).symm,
        List.length_take_of_le (Nat.le_of_not_lt hshort), hbuild⟩
    next => cases h
  · rintro ⟨operands, rfl, hlen, hbuild⟩
    have hcount : operandCount opcode ≠ 3 := fun h3 => by
      rw [kindOf_unknown_of_count h3, Kind.build_unknown] at hbuild
      cases hbuild
    have henough : ¬(operands ++ rest).length < operandCount opcode := by
      rw [List.length_append]
      omega
    rw [if_neg hcount, if_neg henough, List.take_left' hlen, List.drop_left' hlen, hbuild]

/-- R57: a list that decodes begins with an opcode of known kind. -/
theorem kindOf_ne_unknown_of_decode {opcode : Byte} {bytes rest : List Byte} {i : Instr}
    (h : decode (opcode :: bytes) = .ok (i, rest)) : kindOf opcode ≠ .unknown := by
  obtain ⟨operands, -, -, hbuild⟩ := decode_cons_eq_ok.mp h
  intro hunknown
  rw [hunknown, Kind.build_unknown] at hbuild
  cases hbuild

/-- Settles O1. Each opcode of the table builds its instruction from as many operands as its bits 7:6 ask for; a byte
outside the table is of unknown kind, so nothing that begins with it decodes. -/
theorem opcodeBytesDecodeToTheirInstructions : Obligations.OpcodeBytesDecodeToTheirInstructions := by
  refine ⟨fun a b rest => ⟨?ldi, ?prn, ?mul, ?add, ?push, ?pop, ?call, ?ret, ?hlt⟩, ?onlyThese⟩
  case ldi | mul | add => exact decode_cons_eq_ok.mpr ⟨[a, b], rfl, rfl, rfl⟩
  case prn | push | pop | call => exact decode_cons_eq_ok.mpr ⟨[a], rfl, rfl, rfl⟩
  case ret | hlt => exact decode_cons_eq_ok.mpr ⟨[], rfl, rfl, rfl⟩
  case onlyThese =>
    intro opcode bytes rest i h
    by_contra hmem
    exact kindOf_ne_unknown_of_decode h (kindOf_unknown hmem)

end Sys2Proof

namespace Sys2Proof

/-! ## The ALU (spec/41_alu.md R87, R89) -/

namespace Machine

theorem toNat_aluResult_add (a b : Byte) : (aluResult .add a b).toNat = (a.toNat + b.toNat) % 256 := toNat_trunc8 _

theorem toNat_aluResult_mul (a b : Byte) : (aluResult .mul a b).toNat = a.toNat * b.toNat % 256 := toNat_trunc8 _

end Machine

open Machine in
/-- Settles O8. Neither selector raises a fault line, and the result is the exact one truncated to 8 bits. -/
theorem aluAddAndMulAreModulo256 : Obligations.AluAddAndMulAreModulo256 := fun a b =>
  ⟨⟨_, alu_add a b, toNat_aluResult_add a b⟩, ⟨_, alu_mul a b, toNat_aluResult_mul a b⟩⟩

end Sys2Proof

namespace Sys2Proof

/-! ## The ports of `stack_pointer_logic` and the lines of `instruction_decoder` (spec/10_state.md R21, R27) -/

/-- spec/30_encoding.md R54, R55: HLT's row is the only one of its kind. -/
theorem kindOf_eq_hlt {opcode : Byte} : kindOf opcode = .hlt ↔ opcode = 0x01 := by
  constructor
  · intro h
    have hrow := kindOf_cases opcode
    simpa only [h, reduceCtorEq, and_false, and_true, false_or, or_false] using hrow
  · rintro rfl
    rfl

namespace Machine.Blocks

/-- R21: a push decrements SP and addresses the new SP; the push data passes through. -/
theorem stackPointerLogic_push (x7 rdata : Byte) (data : BitVec 9) :
    stackPointerLogic { push := true, x7 := x7, pushData := data, rdata := rdata } =
      ⟨x7 - 1, (x7 - 1).setWidth Config.addrWidth, data, rdata⟩ := rfl

/-- R21: a pop addresses SP and increments it; the byte read passes through. -/
theorem stackPointerLogic_pop (x7 rdata : Byte) (data : BitVec 9) :
    stackPointerLogic { pop := true, x7 := x7, pushData := data, rdata := rdata } =
      ⟨x7 + 1, x7.setWidth Config.addrWidth, data, rdata⟩ := rfl

/-- R27, spec/40_fetch_decode_execute.md R78: the line that stops the core is raised by HLT's opcode alone. -/
theorem instructionDecoder_halt (opcode : Byte) : (instructionDecoder opcode).halt = true ↔ opcode = 0x01 :=
  decide_eq_true_iff.trans kindOf_eq_hlt

/-- spec/41_alu.md R86: no opcode asks for SUB, DIV or an unsupported operation. -/
theorem instructionDecoder_op_eq_zero_or_two (opcode : Byte) :
    (instructionDecoder opcode).op = 0 ∨ (instructionDecoder opcode).op = 2 := by
  rw [instructionDecoder_op]
  split
  · exact .inr rfl
  · exact .inl rfl

end Machine.Blocks

/-- R21: the decremented SP wraps from 0 to 255. -/
theorem toNat_sub_one (v : Byte) : (v - 1).toNat = (v.toNat + 255) % 256 := by
  rw [BitVec.toNat_sub, Nat.add_comm]
  rfl

open Machine.Blocks in
/-- Settles O45. The outputs of `stack_pointer_logic` on a push and on a pop are read off its two equations, where
extending a byte to an address keeps its number; the decoder's lines follow from the rows of the opcode table. -/
theorem stackPointerLogicAndDecoderLines : Obligations.StackPointerLogicAndDecoderLines := by
  refine ⟨fun x7 rdata data => ⟨?push, ?pop⟩, instructionDecoder_halt, rfl, rfl, instructionDecoder_op_eq_zero_or_two⟩
  case push => exact ⟨_, stackPointerLogic_push x7 rdata data, toNat_sub_one x7, toNat_byteAddr _, rfl⟩
  case pop => exact ⟨_, stackPointerLogic_pop x7 rdata data, BitVec.toNat_add x7 1, toNat_byteAddr x7, rfl⟩

end Sys2Proof

namespace Sys2Proof

/-! ## LDI and PRN (spec/42_ldi_prn.md R95, R96) -/

namespace Machine

theorem exec_ldi_regOperand (n : Fin Config.nRegs) (b : Byte) (s : State) :
    exec (.ldi (regOperand n) b) s = .next ((s.setReg n b).advance 3) := by
  rw [exec, execLdi, State.writeReg_regOperand, ok_bind, pure_eq_ok, settle_ok, immediate, trunc8_toNat]

theorem exec_ldi_invalid {a : Byte} (b : Byte) (s : State) (h : 7 < a.toNat) :
    exec (.ldi a b) s = .next (s.raise (.invalidRegister a)) := by
  rw [exec, execLdi, s.writeReg_invalid _ h, error_bind, settle_error]

theorem exec_prn_regOperand (n : Fin Config.nRegs) (s : State) :
    exec (.prn (regOperand n)) s = .next ((s.emit (s.reg n)).advance 2) := by
  rw [exec, execPrn, State.readReg_regOperand, ok_bind, pure_eq_ok, settle_ok]

theorem exec_prn_invalid {a : Byte} (s : State) (h : 7 < a.toNat) :
    exec (.prn a) s = .next (s.raise (.invalidRegister a)) := by
  rw [exec, execPrn, s.readReg_invalid h, error_bind, settle_error]

/-- spec/10_state.md R24: read as a decimal number, the digits shown of a byte give its unsigned value. -/
theorem foldl_decimalDigits (v : Byte) : (decimalDigits v).foldl (fun acc d => 10 * acc + d) 0 = v.toNat := by
  rw [decimalDigits]
  split_ifs <;> simp only [List.foldl_cons, List.foldl_nil] <;> omega

end Machine

open Machine in
/-- Settles O11. A register operand takes `writeReg` to `setReg`; an index above 7 is refused before anything is
written. -/
theorem ldiLoadsTheImmediate : Obligations.LdiLoadsTheImmediate := fun b s =>
  ⟨fun n => exec_ldi_regOperand n b s, fun _ h => exec_ldi_invalid b s h⟩

open Machine in
/-- Settles O12. A register operand takes `readReg` to the byte emitted, whose digits give its value; an index above 7
is refused before anything is emitted. -/
theorem prnEmitsTheRegister : Obligations.PrnEmitsTheRegister := fun s =>
  ⟨fun n => ⟨exec_prn_regOperand n s, foldl_decimalDigits s.x[n]⟩, fun _ h => exec_prn_invalid s h⟩

end Sys2Proof

namespace Sys2Proof

/-! ## CALL, RET, and everything an instruction can do (spec/45_call_ret.md, spec/40_fetch_decode_execute.md R74
items 5 to 8) -/

/-- R53: every byte is a register's operand byte or an index that names none. -/
theorem exists_regOperand_or_invalid (a : Byte) : (∃ n : Fin Config.nRegs, a = regOperand n) ∨ 7 < a.toNat :=
  (le_or_gt a.toNat 7).imp_left exists_regOperand

namespace Machine

/-! ### One equation for each case of an instruction -/

theorem aluToRegister_regOperand {op : AluOp} (hop : ∀ a b, alu op.selector a b = .ok (aluResult op a b))
    (n k : Fin Config.nRegs) (s : State) :
    aluToRegister op (regOperand n) (regOperand k) s =
      .ok ((s.setReg n (aluResult op (s.reg n) (s.reg k))).advance 3) := by
  simp only [aluToRegister, checkReg_regOperand, State.readReg_regOperand, hop, State.writeReg_regOperand,
    trunc8_toNat, ok_bind, pure_eq_ok]

theorem aluToRegister_first_invalid (op : AluOp) {a : Byte} (b : Byte) (s : State) (h : 7 < a.toNat) :
    aluToRegister op a b s = .error (.invalidRegister a) := by
  rw [aluToRegister, checkReg_invalid h, error_bind]

theorem aluToRegister_second_invalid (op : AluOp) (n : Fin Config.nRegs) {b : Byte} (s : State) (h : 7 < b.toNat) :
    aluToRegister op (regOperand n) b s = .error (.invalidRegister b) := by
  rw [aluToRegister, checkReg_regOperand, ok_bind, checkReg_invalid h, error_bind]

theorem exec_push_regOperand (n : Fin Config.nRegs) (s : State) :
    exec (.push (regOperand n)) s =
      .next ((s.decSp.setMem (s.mem.write (s.sp - 1).toNat (s.decSp.reg n))).advance 2) := by
  rw [exec, execPush, checkReg_regOperand, ok_bind, State.readReg_regOperand, ok_bind, State.push_eq, ok_bind,
    pure_eq_ok, settle_ok, trunc8_toNat]

theorem exec_push_invalid {a : Byte} (s : State) (h : 7 < a.toNat) :
    exec (.push a) s = .next (s.raise (.invalidRegister a)) := by
  rw [exec, execPush, checkReg_invalid h, error_bind, settle_error]

theorem exec_pop_regOperand (n : Fin Config.nRegs) (s : State) :
    exec (.pop (regOperand n)) s = .next ((s.setReg n (s.mem.read s.sp.toNat)).incSp.advance 2) := by
  rw [exec, execPop, checkReg_regOperand, ok_bind, State.memRead_byte, ok_bind, State.writeReg_regOperand, ok_bind,
    pure_eq_ok, settle_ok, trunc8_toNat]

theorem exec_pop_invalid {a : Byte} (s : State) (h : 7 < a.toNat) :
    exec (.pop a) s = .next (s.raise (.invalidRegister a)) := by
  rw [exec, execPop, checkReg_invalid h, error_bind, settle_error]

theorem exec_call_regOperand (n : Fin Config.nRegs) (s : State) :
    exec (.call (regOperand n)) s =
      .next ((s.decSp.setMem (s.mem.write (s.sp - 1).toNat (trunc8 (s.pc + 2)))).setPc (s.decSp.reg n).toNat) := by
  rw [exec, execCall, checkReg_regOperand, ok_bind, State.push_eq, ok_bind, State.readReg_regOperand, ok_bind,
    pure_eq_ok, settle_ok, State.reg_setMem]

theorem exec_call_invalid {a : Byte} (s : State) (h : 7 < a.toNat) :
    exec (.call a) s = .next (s.raise (.invalidRegister a)) := by
  rw [exec, execCall, checkReg_invalid h, error_bind, settle_error]

theorem exec_ret (s : State) : exec .ret s = .next (s.incSp.setPc (s.mem.read s.sp.toNat).toNat) := by
  rw [exec, execRet, State.pop_eq, ok_bind]
  rfl

theorem exec_hlt (s : State) : exec .hlt s = .next s.halt := by
  rw [exec, execHlt, settle_ok]

/-! ### The inversion lemma -/

/-- `Completes s i t`: instruction `i`, begun in `s`, raises no fault and leaves `t`. With fault entry this is
everything `exec` can do (`exec_cases`). -/
inductive Completes (s : State) : Instr → State → Prop
  | ldi (n : Fin Config.nRegs) (b : Byte) : Completes s (.ldi (regOperand n) b) ((s.setReg n b).advance 3)
  | prn (n : Fin Config.nRegs) : Completes s (.prn (regOperand n)) ((s.emit (s.reg n)).advance 2)
  | mul (n k : Fin Config.nRegs) : Completes s (.mul (regOperand n) (regOperand k))
      ((s.setReg n (aluResult .mul (s.reg n) (s.reg k))).advance 3)
  | add (n k : Fin Config.nRegs) : Completes s (.add (regOperand n) (regOperand k))
      ((s.setReg n (aluResult .add (s.reg n) (s.reg k))).advance 3)
  | push (n : Fin Config.nRegs) : Completes s (.push (regOperand n))
      ((s.decSp.setMem (s.mem.write (s.sp - 1).toNat (s.decSp.reg n))).advance 2)
  | pop (n : Fin Config.nRegs) : Completes s (.pop (regOperand n))
      ((s.setReg n (s.mem.read s.sp.toNat)).incSp.advance 2)
  | call (n : Fin Config.nRegs) : Completes s (.call (regOperand n))
      ((s.decSp.setMem (s.mem.write (s.sp - 1).toNat (trunc8 (s.pc + 2)))).setPc (s.decSp.reg n).toNat)
  | ret : Completes s .ret (s.incSp.setPc (s.mem.read s.sp.toNat).toNat)
  | hlt : Completes s .hlt s.halt

/-- An instruction with one register operand: the operand is refused, or it names the register that the result
depends on. -/
theorem registerOperand_cases (run : Byte → Host.Outcome State Fault Refusal) {done : Fin Config.nRegs → State}
    {a : Byte} {s t : State} (hvalid : ∀ n, run (regOperand n) = .next (done n))
    (hinvalid : ∀ r : Byte, 7 < r.toNat → run r = .next (s.raise (.invalidRegister r))) (h : run a = .next t) :
    (∃ r ∈ [a], 7 < r.toNat ∧ t = s.raise (.invalidRegister r)) ∨ ∃ n, a = regOperand n ∧ t = done n := by
  obtain ⟨n, rfl⟩ | ha := exists_regOperand_or_invalid a
  · cases (hvalid n).symm.trans h
    exact .inr ⟨n, rfl, rfl⟩
  · cases (hinvalid a ha).symm.trans h
    exact .inl ⟨a, List.mem_singleton_self a, ha, rfl⟩

/-- MUL and ADD, for an operation whose fault lines stay low: one of the two operands is refused, or both name
registers and the result is written. -/
theorem settle_aluToRegister_cases {op : AluOp} (hop : ∀ a b, alu op.selector a b = .ok (aluResult op a b))
    {a b : Byte} {s t : State} (h : settle s (aluToRegister op a b s) = .next t) :
    (∃ r ∈ [a, b], 7 < r.toNat ∧ t = s.raise (.invalidRegister r)) ∨
      ∃ n k, a = regOperand n ∧ b = regOperand k ∧
        t = (s.setReg n (aluResult op (s.reg n) (s.reg k))).advance 3 := by
  obtain ⟨n, rfl⟩ | ha := exists_regOperand_or_invalid a
  · obtain ⟨k, rfl⟩ | hb := exists_regOperand_or_invalid b
    · rw [aluToRegister_regOperand hop] at h
      cases h
      exact .inr ⟨n, k, rfl, rfl, rfl⟩
    · rw [aluToRegister_second_invalid op n s hb] at h
      cases h
      exact .inl ⟨b, List.mem_cons_of_mem _ (List.mem_singleton_self b), hb, rfl⟩
  · rw [aluToRegister_first_invalid op b s ha] at h
    cases h
    exact .inl ⟨a, List.mem_cons_self, ha, rfl⟩

/-- R74, spec/60_exceptions.md R122, R130: an instruction enters the fault of one of its register operands, or
completes. -/
theorem exec_cases {i : Instr} {s t : State} (h : exec i s = .next t) :
    (∃ r ∈ registerOperands i, 7 < r.toNat ∧ t = s.raise (.invalidRegister r)) ∨ Completes s i t := by
  cases i with
  | ldi a b =>
    refine (registerOperand_cases (fun r => exec (.ldi r b) s) (exec_ldi_regOperand · b s)
      (fun _ => exec_ldi_invalid b s) h).imp_right ?_
    rintro ⟨n, rfl, rfl⟩
    exact .ldi n b
  | prn a =>
    refine (registerOperand_cases (fun r => exec (.prn r) s) (exec_prn_regOperand · s)
      (fun _ => exec_prn_invalid s) h).imp_right ?_
    rintro ⟨n, rfl, rfl⟩
    exact .prn n
  | mul a b =>
    refine (settle_aluToRegister_cases alu_mul h).imp_right ?_
    rintro ⟨n, k, rfl, rfl, rfl⟩
    exact .mul n k
  | add a b =>
    refine (settle_aluToRegister_cases alu_add h).imp_right ?_
    rintro ⟨n, k, rfl, rfl, rfl⟩
    exact .add n k
  | push a =>
    refine (registerOperand_cases (fun r => exec (.push r) s) (exec_push_regOperand · s)
      (fun _ => exec_push_invalid s) h).imp_right ?_
    rintro ⟨n, rfl, rfl⟩
    exact .push n
  | pop a =>
    refine (registerOperand_cases (fun r => exec (.pop r) s) (exec_pop_regOperand · s)
      (fun _ => exec_pop_invalid s) h).imp_right ?_
    rintro ⟨n, rfl, rfl⟩
    exact .pop n
  | call a =>
    refine (registerOperand_cases (fun r => exec (.call r) s) (exec_call_regOperand · s)
      (fun _ => exec_call_invalid s) h).imp_right ?_
    rintro ⟨n, rfl, rfl⟩
    exact .call n
  | ret =>
    cases (exec_ret s).symm.trans h
    exact .inr .ret
  | hlt =>
    cases (exec_hlt s).symm.trans h
    exact .inr .hlt

/-- R74: an instruction that completes changes the run state only where it is HLT. -/
theorem Completes.runState_cases {i : Instr} {s t : State} (h : Completes s i t) :
    t.runState = s.runState ∨ i = .hlt ∧ t.runState = .halted := by
  cases h with
  | hlt => exact .inr ⟨rfl, rfl⟩
  | _ => exact .inl rfl

/-- spec/10_state.md R22: a core that was not FAULTED is not FAULTED by an instruction that completes. -/
theorem Completes.runState_ne_faulted {i : Instr} {s t : State} (h : Completes s i t) (hs : s.runState ≠ .faulted) :
    t.runState ≠ .faulted := by
  obtain hsame | ⟨-, hhalted⟩ := h.runState_cases
  · rwa [hsame]
  · rw [hhalted]
    decide

end Machine

open Machine in
/-- Settles O25. A fault leaves `pc` as it was; an instruction that completes leaves the `pc` of its row of
`Completes`, where CALL's target is read from the registers after SP changed. -/
theorem pcAfterEachInstruction : Obligations.PcAfterEachInstruction := by
  intro i s t hrun hexec
  obtain ⟨r, -, -, rfl⟩ | hcompletes := exec_cases hexec
  · exact ⟨fun _ => rfl, fun hne => absurd rfl hne⟩
  · have hne : t.runState ≠ .faulted := hcompletes.runState_ne_faulted (by rw [hrun]; decide)
    refine ⟨fun hfaulted => absurd hfaulted hne, fun _ => ?_⟩
    cases hcompletes with
    | call n => exact ⟨n, toNat_regOperand n, rfl⟩
    | _ => rfl

open Machine in
/-- Settles O18. The byte at SP is always inside memory, so the pop cannot fault. -/
theorem retPopsTheProgramCounter : Obligations.RetPopsTheProgramCounter := exec_ret

end Sys2Proof

namespace Sys2Proof

/-! ## A push into the next instruction, then HLT (spec/20_memory.md section 4, spec/46_hlt_unknown.md R115) -/

namespace Machine

/-- spec/40_fetch_decode_execute.md R70 to R72: an opcode inside memory with its operands is fetched as the instruction
of its row. -/
theorem State.fetchInstr_of_build {s : State} {opcode : Byte} {i : Instr} (hop : s.mem.read s.pc = opcode)
    (hin : s.pc + operandCount opcode ≤ 255)
    (hbuild : (kindOf opcode).build ((List.range' (s.pc + 1) (operandCount opcode)).map s.mem.read) = some i) :
    s.fetchInstr = .ok i := by
  subst hop
  have hcount : operandCount (s.mem.read s.pc) ≠ 3 := fun h3 => by
    rw [kindOf_unknown_of_count h3, Kind.build_unknown] at hbuild
    cases hbuild
  rw [s.fetchInstr_inside hcount hin, hbuild]

theorem step_push_regOperand {s : State} {n : Fin Config.nRegs} (hs : s.runState = .running) (hpc : s.pc ≤ 254)
    (hop : s.mem.read s.pc = 0x45) (ha : s.mem.read (s.pc + 1) = regOperand n) :
    step s = .next ((s.decSp.setMem (s.mem.write (s.sp - 1).toNat (s.decSp.reg n))).advance 2) := by
  have hfetch : s.fetchInstr = .ok (.push (regOperand n)) :=
    State.fetchInstr_of_build hop (Nat.succ_le_succ hpc) (congrArg (fun a => some (Instr.push a)) ha)
  rw [step_fetched hs hfetch, exec_push_regOperand]

/-- R115, spec/92_eei_decisions.md D10: fetching the HLT opcode halts the core and leaves `pc` where it is. -/
theorem step_hlt {s : State} (hs : s.runState = .running) (hpc : s.pc ≤ 255) (hop : s.mem.read s.pc = 0x01) :
    step s = .next s.halt := by
  rw [step_fetched hs (State.fetchInstr_of_build hop hpc rfl), exec_hlt]

theorem State.head?_bytesAtPc {s : State} (hpc : s.pc ≤ 255) : s.bytesAtPc.head? = some (s.mem.read s.pc) := by
  rw [State.bytesAtPc, List.head?_map, List.head?_range', if_neg (by omega), Option.map_some]

theorem State.toNat_sp_sub_one (s : State) : (s.sp - 1).toNat = s.pushCell := toNat_sub_one s.sp

/-- A register other than R7 is not changed by the decrement of SP. -/
theorem State.reg_decSp_other (s : State) {n : Fin Config.nRegs} (hn : n ≠ Config.spIndex) :
    s.decSp.reg n = s.reg n := by
  rw [State.reg_decSp, if_neg hn]

end Machine

open Machine in
/-- Settles O42. The push stores at `pc + 2`, which is `pc` after it, so the next fetch reads back the byte stored. -/
theorem pushedOpcodeIsFetchedByTheNextStep : Obligations.PushedOpcodeIsFetchedByTheNextStep := by
  intro s n hs hwf hpc hn hop ha hcell
  have hstored : (s.mem.write (s.sp - 1).toNat (s.decSp.reg n)).read (s.pc + 2) = s.reg n := by
    rw [s.toNat_sp_sub_one, hcell, Memory.read_write_same _ _ hwf, s.reg_decSp_other hn]
  have hpc' : s.pc + 2 ≤ 255 := Nat.add_le_add_right hpc 2
  refine ⟨_, step_push_regOperand hs (hpc.trans (by decide)) hop ha, rfl, ?fetched, ?halts⟩
  case fetched => exact (State.head?_bytesAtPc hpc').trans (congrArg some hstored)
  case halts => exact fun hval => step_hlt hs hpc' (hstored.trans hval)

end Sys2Proof

namespace Sys2Proof

/-! ## The register check of an instruction (spec/60_exceptions.md R122) -/

namespace Machine

theorem exists_settle_eq_next (s : State) (r : Except Fault State) : ∃ t, settle s r = .next t := by
  cases r with
  | ok t => exact ⟨t, settle_ok s t⟩
  | error f => exact ⟨s.raise f, settle_error s f⟩

/-- spec/60_exceptions.md R130: a fault is a next state, so every instruction, whatever its operands, answers one. -/
theorem exists_exec_eq_next (i : Instr) (s : State) : ∃ t, exec i s = .next t := by
  cases i with
  | hlt => exact ⟨s.halt, exec_hlt s⟩
  | _ => exact exists_settle_eq_next s _

/-- R122: an instruction that completes has passed the check of every register operand. -/
theorem Completes.registerOperands_le {i : Instr} {s t : State} (h : Completes s i t) :
    ∀ r ∈ registerOperands i, r.toNat ≤ 7 := by
  have hle (n : Fin Config.nRegs) : (regOperand n).toNat ≤ 7 := by
    rw [toNat_regOperand]
    exact Nat.le_of_lt_succ n.isLt
  cases h with
  | mul n k | add n k => exact List.forall_mem_cons.2 ⟨hle n, List.forall_mem_singleton.2 (hle k)⟩
  | ret | hlt => exact List.forall_mem_nil _
  | ldi n | prn n | push n | pop n | call n => exact List.forall_mem_singleton.2 (hle n)

/-- spec/10_state.md R23: only fault entry writes the fault record. -/
theorem Completes.fault_eq {i : Instr} {s t : State} (h : Completes s i t) : t.fault = s.fault := by
  cases h <;> rfl

end Machine

open Machine in
/-- Settles O20. Every instruction answers a next state. It is the fault entry of an operand above 7, or that of an
instruction that completed, whose operands have all passed the check. -/
theorem invalidRegisterIsRaisedExactlyByBadIndices : Obligations.InvalidRegisterIsRaisedExactlyByBadIndices := by
  intro i s
  obtain ⟨t, hexec⟩ := exists_exec_eq_next i s
  obtain ⟨r, hr, hbad, rfl⟩ | hcompletes := exec_cases hexec
  · exact ⟨fun _ => ⟨_, hexec, State.raise_runState .., r, hr, hbad, State.raise_fault ..⟩,
      fun hvalid => absurd (hvalid r hr) hbad.not_ge⟩
  · exact ⟨fun ⟨r, hr, hbad⟩ => absurd (hcompletes.registerOperands_le r hr) hbad.not_ge,
      fun _ => ⟨t, hexec, hcompletes.fault_eq, hcompletes.runState_cases⟩⟩

end Sys2Proof

namespace Sys2Proof

/-! ## Well-formed instructions and the run state (spec/70_reset_and_hazards.md R144(5)) -/

theorem isRegIndex_eq_true_iff {a : Byte} : isRegIndex a = true ↔ a.toNat ≤ 7 := decide_eq_true_iff

namespace Machine

/-- R62: well-formedness is the register check of R122, made of every register operand. -/
theorem wellFormed_eq_all_isRegIndex (i : Instr) : i.wellFormed = (registerOperands i).all isRegIndex := by
  cases i with
  | mul a b | add a b => exact congrArg (isRegIndex a && ·) (Bool.and_true _).symm
  | ret | hlt => rfl
  | ldi a _ | prn a | push a | pop a | call a => exact (Bool.and_true _).symm

theorem wellFormed_eq_true_iff {i : Instr} : i.wellFormed = true ↔ ∀ r ∈ registerOperands i, r.toNat ≤ 7 := by
  simp only [wellFormed_eq_all_isRegIndex, List.all_eq_true, isRegIndex_eq_true_iff]

theorem Completes.wellFormed_eq_true {i : Instr} {s t : State} (h : Completes s i t) : i.wellFormed = true :=
  wellFormed_eq_true_iff.2 h.registerOperands_le

theorem wellFormed_eq_false_of_mem {i : Instr} {r : Byte} (hr : r ∈ registerOperands i) (hbad : 7 < r.toNat) :
    i.wellFormed = false :=
  Bool.eq_false_iff.2 fun hwf => absurd (wellFormed_eq_true_iff.1 hwf r hr) hbad.not_ge

/-- R115: of the instructions that complete, HLT alone halts a core that was not HALTED. -/
theorem Completes.runState_eq_halted_iff {i : Instr} {s t : State} (h : Completes s i t)
    (hs : s.runState ≠ .halted) : t.runState = .halted ↔ i = .hlt := by
  cases h with
  | hlt => exact iff_of_true rfl rfl
  | _ => exact iff_of_false hs Instr.noConfusion

end Machine

open Machine in
/-- Settles O21. An instruction enters the fault of an operand above 7, and then is neither well formed nor HLT, which
is well formed; or it completes, and then is well formed and stays out of FAULTED. -/
theorem executionFaultsExactlyOnIllFormedInstructions : Obligations.ExecutionFaultsExactlyOnIllFormedInstructions := by
  intro i s hrun
  obtain ⟨t, hexec⟩ := exists_exec_eq_next i s
  refine ⟨t, hexec, ?_⟩
  obtain ⟨r, hr, hbad, rfl⟩ | hcompletes := exec_cases hexec
  · have hill : i.wellFormed = false := wellFormed_eq_false_of_mem hr hbad
    have hne : i ≠ .hlt := by
      rintro rfl
      cases hr
    exact ⟨iff_of_true rfl hill, iff_of_false RunState.noConfusion hne⟩
  · have hwf : i.wellFormed ≠ false := ne_false_of_eq_true hcompletes.wellFormed_eq_true
    exact ⟨iff_of_false (hcompletes.runState_ne_faulted (by rw [hrun]; decide)) hwf,
      hcompletes.runState_eq_halted_iff (by rw [hrun]; decide)⟩

end Sys2Proof

namespace Sys2Proof

/-! ## The memory image of a program (spec/70_reset_and_hazards.md R141, R142) -/

namespace Machine

/-- R141: a program that fits is loaded, followed by the fill up to the top of memory. -/
theorem exists_loadImage_eq_ok {program : List Byte} (h : program.length ≤ 256) :
    ∃ image, loadImage program = .ok image ∧
      image.toList = program ++ List.replicate (256 - program.length) Config.unlistedByte :=
  ⟨_, dif_pos h, rfl⟩

/-- R142: a program that does not fit is refused at the first address above memory. -/
theorem loadImage_too_long {program : List Byte} (h : 256 < program.length) :
    loadImage program = .error (.addressOutOfRange 256) :=
  dif_neg h.not_ge

/-- A list padded with `v` holds at each of its places what the list itself holds there, `v` beyond its end. -/
theorem getElem_append_replicate (l : List Byte) (n : Nat) (v : Byte) {k : Nat}
    (h : k < (l ++ List.replicate n v).length) : (l ++ List.replicate n v)[k] = l.getD k v := by
  obtain hk | hk := lt_or_ge k l.length
  · rw [List.getElem_append_left hk, List.getD_eq_getElem _ _ hk]
  · rw [List.getElem_append_right hk, List.getElem_replicate, List.getD_eq_default _ _ hk]

end Machine

open Machine in
/-- Settles O37. The image is the program with the fill appended, so its cell `k` is byte `k` of the program where
there is one. -/
theorem loaderPlacesTheProgramAtAddressZero : Obligations.LoaderPlacesTheProgramAtAddressZero := by
  refine fun program => ⟨fun hfits => ?_, loadImage_too_long⟩
  obtain ⟨image, hload, hlist⟩ := exists_loadImage_eq_ok hfits
  refine ⟨image, hload, fun k hk => ?_⟩
  calc image[k]
    _ = image.toList[k]'(by rwa [Vector.length_toList]) := (Vector.getElem_toList _).symm
    _ = program.getD k Config.unlistedByte := by
      simp only [hlist, getElem_append_replicate]

end Sys2Proof

namespace Sys2Proof

/-! ## Encoding and decoding are inverse (spec/30_encoding.md R50 to R62) -/

/-! Bytes that a format takes are the operand bytes of the instruction it makes of them (R51). -/

theorem encode_of_formatZ {opcode : Byte} {operands : List Byte} {f i : Instr} (h : formatZ f operands = some i)
    (hf : encode f = [opcode]) : encode i = opcode :: operands := by
  obtain ⟨rfl, rfl⟩ := formatZ_eq_some.mp h
  exact hf

theorem encode_of_formatR {opcode : Byte} {operands : List Byte} {f : Byte → Instr} {i : Instr}
    (h : formatR f operands = some i) (hf : ∀ a, encode (f a) = [opcode, a]) : encode i = opcode :: operands := by
  obtain ⟨a, rfl, rfl⟩ := formatR_eq_some.mp h
  exact hf a

theorem encode_of_formatRR {opcode : Byte} {operands : List Byte} {f : Byte → Byte → Instr} {i : Instr}
    (h : formatRR f operands = some i) (hf : ∀ a b, encode (f a b) = [opcode, a, b]) :
    encode i = opcode :: operands := by
  obtain ⟨a, b, rfl, rfl⟩ := formatRR_eq_some.mp h
  exact hf a b

/-- R62: an opcode with its operand bytes builds exactly the instruction whose encoding they are. -/
theorem build_kindOf_eq_some {opcode : Byte} {operands : List Byte} {i : Instr} :
    (kindOf opcode).build operands = some i ↔ encode i = opcode :: operands := by
  constructor
  · intro h
    rcases kindOf_cases opcode with ⟨rfl, hk⟩ | ⟨rfl, hk⟩ | ⟨rfl, hk⟩ | ⟨rfl, hk⟩ | ⟨rfl, hk⟩ | ⟨rfl, hk⟩ | ⟨rfl, hk⟩ |
      ⟨rfl, hk⟩ | ⟨rfl, hk⟩ | ⟨-, hk⟩ <;> rw [hk] at h
    · exact encode_of_formatRR h fun _ _ => rfl
    · exact encode_of_formatR h fun _ => rfl
    · exact encode_of_formatRR h fun _ _ => rfl
    · exact encode_of_formatRR h fun _ _ => rfl
    · exact encode_of_formatR h fun _ => rfl
    · exact encode_of_formatR h fun _ => rfl
    · exact encode_of_formatR h fun _ => rfl
    · exact encode_of_formatZ h rfl
    · exact encode_of_formatZ h rfl
    · cases h
  · intro h
    cases i <;> cases h <;> rfl

/-- R50: the opcode of an encoding tells how many operand bytes follow it. -/
theorem exists_encode_eq_cons (i : Instr) :
    ∃ opcode operands, encode i = opcode :: operands ∧ operands.length = operandCount opcode ∧
      operandCount opcode ≤ 2 := by
  cases i with
  | ldi a b => exact Laws.EncodedLength.ldi a b
  | prn a => exact Laws.EncodedLength.prn a
  | mul a b => exact Laws.EncodedLength.mul a b
  | add a b => exact Laws.EncodedLength.add a b
  | push a => exact Laws.EncodedLength.push a
  | pop a => exact Laws.EncodedLength.pop a
  | call a => exact Laws.EncodedLength.call a
  | ret => exact Laws.EncodedLength.ret
  | hlt => exact Laws.EncodedLength.hlt

/-- Settles O2. After the opcode the decoder takes as many bytes as its bits 7:6 ask for, and these build the
instruction exactly when they are its operand bytes. -/
theorem decodeExactlyInvertsEncode : Obligations.DecodeExactlyInvertsEncode := by
  intro bytes rest i
  obtain ⟨opcode, operands, henc, hlen, -⟩ := exists_encode_eq_cons i
  cases bytes with
  | nil =>
    rw [henc]
    exact iff_of_false nofun nofun
  | cons first bytes =>
    rw [decode_cons_eq_ok]
    constructor
    · rintro ⟨operands, rfl, -, hbuild⟩
      rw [build_kindOf_eq_some.mp hbuild]
      rfl
    · intro h
      rw [henc] at h
      cases h
      exact ⟨operands, rfl, hlen, build_kindOf_eq_some.mpr henc⟩

theorem decode_encode_append (i : Instr) (rest : List Byte) : decode (encode i ++ rest) = .ok (i, rest) :=
  (decodeExactlyInvertsEncode _ rest i).mpr rfl

/-- Settles O3. An opcode of unknown kind builds nothing, whatever operand bytes the decoder takes; the bytes are
counted before the opcode is looked up. -/
theorem everyOtherByteListIsRejectedByName : Obligations.EveryOtherByteListIsRejectedByName := by
  refine ⟨rfl, fun opcode rest hmem hbytes => ?unknown, fun opcode rest hlt hshort => ?missing⟩
  case unknown =>
    rw [decode_cons, operandCount_eq, kindOf_unknown hmem, Kind.build_unknown]
    split_ifs with hcount hshort
    · rfl
    · have := opcode.isLt
      omega
    · rfl
  case missing =>
    rw [decode_cons, operandCount_eq, if_neg (by omega), if_pos hshort]

/-! ## The numbering of the opcode table (spec/20_memory.md section 2) -/

theorem wordOfBytes_cons (v : Byte) (rest : List Byte) :
    wordOfBytes (v :: rest) = v.toNat + 256 * wordOfBytes rest := rfl

/-- Byte `k` of the number that a list of bytes makes, 0 beyond its end. -/
theorem trunc8_wordOfBytes_div (l : List Byte) (k : Nat) : trunc8 (wordOfBytes l / 256 ^ k) = l.getD k 0 := by
  induction l generalizing k with
  | nil => simp [wordOfBytes, trunc8]
  | cons v rest ih =>
    have hv := v.isLt
    cases k with
    | zero =>
      apply BitVec.eq_of_toNat_eq
      rw [toNat_trunc8, wordOfBytes_cons, List.getD_cons_zero]
      omega
    | succ k =>
      rw [List.getD_cons_succ, ← ih k, wordOfBytes_cons, pow_succ', ← Nat.div_div_eq_div_mul]
      congr 2
      omega

theorem wordOfBytes_lt (l : List Byte) : wordOfBytes l < 256 ^ l.length := by
  induction l with
  | nil => exact Nat.one_pos
  | cons v rest ih =>
    have hv := v.isLt
    rw [wordOfBytes_cons, List.length_cons, pow_succ']
    omega

/-- At most three bytes, numbered and read back, are followed by zeros. -/
theorem wordBytes_wordOfBytes {l : List Byte} (h : l.length ≤ 3) :
    wordBytes (8 * l.length) (wordOfBytes l) = l ++ List.replicate (3 - l.length) 0 := by
  have hlt : wordOfBytes l < 2 ^ (8 * l.length) := by
    rw [pow_mul]
    exact wordOfBytes_lt l
  have hlen : (wordBytes (8 * l.length) (wordOfBytes l)).length =
      (l ++ List.replicate (3 - l.length) (0 : Byte)).length := by
    simp only [wordBytes, Config.maxIlen, List.length_map, List.length_range, List.length_append,
      List.length_replicate]
    omega
  refine List.ext_getElem hlen fun k _ hk => ?_
  simp only [wordBytes, List.getElem_map, List.getElem_range, Nat.mod_eq_of_lt hlt]
  rw [trunc8_wordOfBytes_div, Machine.getElem_append_replicate]

theorem length_encode_le (i : Instr) : (encode i).length ≤ 3 := by
  obtain ⟨opcode, operands, henc, hlen, hcount⟩ := exists_encode_eq_cons i
  rw [henc, List.length_cons]
  omega

/-- The word of an instruction is its encoding, filled up with zeros to three bytes. -/
theorem wordBytes_encode (i : Instr) : wordBytes (8 * (encode i).length) (wordOfBytes (encode i)) =
    encode i ++ List.replicate (3 - (encode i).length) 0 :=
  wordBytes_wordOfBytes (length_encode_le i)

/-- Settles O4. The bytes of the word begin with the encoding, and the decoder ignores what follows it. -/
theorem tableWordOfAnInstructionDecodesToIt : Obligations.TableWordOfAnInstructionDecodesToIt := by
  intro i
  rw [decodeTableWord, wordBytes_encode, decode_encode_append]

end Sys2Proof

namespace Sys2Proof

/-! ## The common fetch, case by case (spec/40_fetch_decode_execute.md R70 to R72) -/

theorem formatZ_ne_none (f : Instr) {l : List Byte} (h : l.length = 0) : formatZ f l ≠ none := by
  obtain rfl := List.length_eq_zero_iff.mp h
  nofun

theorem formatR_ne_none (f : Byte → Instr) {l : List Byte} (h : l.length = 1) : formatR f l ≠ none := by
  obtain ⟨a, rfl⟩ := List.length_eq_one_iff.mp h
  nofun

theorem formatRR_ne_none (f : Byte → Byte → Instr) {l : List Byte} (h : l.length = 2) : formatRR f l ≠ none := by
  obtain ⟨a, b, rfl⟩ := List.length_eq_two.mp h
  nofun

/-- spec/30_encoding.md R54, R57: with as many operand bytes as bits 7:6 ask for, the lookup fails only on an opcode
outside the table. -/
theorem kindOf_unknown_of_build_eq_none {opcode : Byte} {operands : List Byte}
    (hlen : operands.length = operandCount opcode) (h : (kindOf opcode).build operands = none) :
    kindOf opcode = .unknown := by
  rcases kindOf_cases opcode with ⟨rfl, hk⟩ | ⟨rfl, hk⟩ | ⟨rfl, hk⟩ | ⟨rfl, hk⟩ | ⟨rfl, hk⟩ | ⟨rfl, hk⟩ | ⟨rfl, hk⟩ |
    ⟨rfl, hk⟩ | ⟨rfl, hk⟩ | ⟨-, hk⟩ <;> rw [hk] at h
  · exact absurd h (formatRR_ne_none _ hlen)
  · exact absurd h (formatR_ne_none _ hlen)
  · exact absurd h (formatRR_ne_none _ hlen)
  · exact absurd h (formatRR_ne_none _ hlen)
  · exact absurd h (formatR_ne_none _ hlen)
  · exact absurd h (formatR_ne_none _ hlen)
  · exact absurd h (formatR_ne_none _ hlen)
  · exact absurd h (formatZ_ne_none _ hlen)
  · exact absurd h (formatZ_ne_none _ hlen)
  · exact hk

theorem length_encode (i : Instr) : (encode i).length = Machine.instrWidth i := by
  cases i <;> rfl

namespace Machine

theorem instrWidth_pos (i : Instr) : 0 < instrWidth i := by
  cases i <;> exact Nat.succ_pos _

theorem instrWidth_le (i : Instr) : instrWidth i ≤ 3 :=
  length_encode i ▸ length_encode_le i

/-- spec/30_encoding.md R50: the width of an instruction, from its opcode. -/
theorem instrWidth_of_encode {i : Instr} {opcode : Byte} {operands : List Byte} (h : encode i = opcode :: operands) :
    instrWidth i = operandCount opcode + 1 := by
  obtain ⟨opcode', operands', henc, hlen, -⟩ := exists_encode_eq_cons i
  obtain ⟨rfl, rfl⟩ := List.cons.inj (h.symm.trans henc)
  rw [← length_encode, h, List.length_cons, hlen]

/-- `Fetches s r`: the fetch that begins in `s` answers `r`, an instruction or the fault of fetching it. -/
inductive Fetches (s : State) : Except Fault Instr → Prop
  | opcodeOutside (hpc : 255 < s.pc) : Fetches s (.error (.addressOutOfRange s.pc))
  | count3 (hpc : s.pc ≤ 255) (hcount : operandCount (s.mem.read s.pc) = 3) :
      Fetches s (.error (.unknownInstruction (s.mem.read s.pc)))
  | operandOutside (hpc : s.pc ≤ 255) (hcount : operandCount (s.mem.read s.pc) ≠ 3)
      (hout : 255 < s.pc + operandCount (s.mem.read s.pc)) : Fetches s (.error (.addressOutOfRange 256))
  | unknown (hcount : operandCount (s.mem.read s.pc) ≠ 3) (hin : s.pc + operandCount (s.mem.read s.pc) ≤ 255)
      (hkind : kindOf (s.mem.read s.pc) = .unknown) : Fetches s (.error (.unknownInstruction (s.mem.read s.pc)))
  | instr {i : Instr} (hin : s.pc + instrWidth i ≤ 256)
      (hbytes : (List.range' s.pc (instrWidth i)).map s.mem.read = encode i) : Fetches s (.ok i)

theorem State.map_read_range'_succ (s : State) (addr n : Nat) :
    (List.range' addr (n + 1)).map s.mem.read = s.mem.read addr :: (List.range' (addr + 1) n).map s.mem.read := rfl

/-- An instruction's bytes stand at `pc` exactly when its opcode does and the operand bytes it asks for follow. -/
theorem State.map_read_eq_encode {s : State} {i : Instr} :
    (List.range' s.pc (instrWidth i)).map s.mem.read = encode i ↔
      encode i = s.mem.read s.pc ::
        (List.range' (s.pc + 1) (operandCount (s.mem.read s.pc))).map s.mem.read := by
  constructor
  · intro h
    obtain ⟨opcode, operands, henc, -⟩ := exists_encode_eq_cons i
    rw [instrWidth_of_encode henc, State.map_read_range'_succ, henc] at h
    obtain ⟨rfl, hoperands⟩ := List.cons.inj h
    rw [henc, hoperands]
  · intro h
    rw [instrWidth_of_encode h, State.map_read_range'_succ, ← h]

/-- Everything the fetch can answer, and when it does. -/
theorem State.fetches (s : State) : Fetches s s.fetchInstr := by
  by_cases hpc : 255 < s.pc
  · rw [s.fetchInstr_outside hpc]
    exact .opcodeOutside hpc
  by_cases hcount : operandCount (s.mem.read s.pc) = 3
  · rw [s.fetchInstr_count3 (Nat.le_of_not_lt hpc) hcount]
    exact .count3 (Nat.le_of_not_lt hpc) hcount
  by_cases hout : 255 < s.pc + operandCount (s.mem.read s.pc)
  · rw [s.fetchInstr_operand_outside (Nat.le_of_not_lt hpc) hcount hout]
    exact .operandOutside (Nat.le_of_not_lt hpc) hcount hout
  have hin := Nat.le_of_not_lt hout
  rw [s.fetchInstr_inside hcount hin]
  split
  next i hbuild =>
    have henc := build_kindOf_eq_some.mp hbuild
    exact .instr (instrWidth_of_encode henc ▸ Nat.succ_le_succ hin) (State.map_read_eq_encode.mpr henc)
  next hbuild =>
    exact .unknown hcount hin
      (kindOf_unknown_of_build_eq_none (by rw [List.length_map, List.length_range']) hbuild)

/-- R70 to R72: an instruction is fetched exactly where its bytes stand, below address 256. -/
theorem State.fetchInstr_eq_ok {s : State} {i : Instr} :
    s.fetchInstr = .ok i ↔
      s.pc + instrWidth i ≤ 256 ∧ (List.range' s.pc (instrWidth i)).map s.mem.read = encode i := by
  constructor
  · intro h
    have hf := s.fetches
    rw [h] at hf
    cases hf with
    | instr hin hbytes => exact ⟨hin, hbytes⟩
  · rintro ⟨hin, hbytes⟩
    have henc := State.map_read_eq_encode.mp hbytes
    rw [instrWidth_of_encode henc] at hin
    exact State.fetchInstr_of_build rfl (Nat.le_of_succ_le_succ hin) (build_kindOf_eq_some.mpr henc)

theorem State.bytesAtPc_eq_append (s : State) {n : Nat} (h : s.pc + n ≤ 256) :
    s.bytesAtPc =
      (List.range' s.pc n).map s.mem.read ++ (List.range' (s.pc + n) (256 - s.pc - n)).map s.mem.read := by
  rw [← List.map_append, List.range'_append_1, Nat.add_sub_cancel' (by omega), State.bytesAtPc]

/-- An instruction whose encoding begins the bytes at `pc` is the one fetched. -/
theorem State.fetchInstr_of_bytesAtPc {s : State} {i : Instr} {rest : List Byte}
    (h : s.bytesAtPc = encode i ++ rest) : s.fetchInstr = .ok i := by
  have hlen := congrArg List.length h
  have hwidth := instrWidth_pos i
  rw [State.bytesAtPc, List.length_map, List.length_range', List.length_append, length_encode] at hlen
  have hin : s.pc + instrWidth i ≤ 256 := by omega
  rw [s.bytesAtPc_eq_append hin] at h
  refine State.fetchInstr_eq_ok.mpr ⟨hin, List.append_inj_left h ?_⟩
  rw [List.length_map, List.length_range', length_encode]

end Machine

open Machine in
/-- Settles O26. The bytes at `pc` begin with the instruction's encoding, so it is what the step fetches. -/
theorem stepRunsTheDecodedInstruction : Obligations.StepRunsTheDecodedInstruction := by
  intro s i rest hs hdecode
  rw [decodeExactlyInvertsEncode] at hdecode
  exact step_fetched hs (State.fetchInstr_of_bytesAtPc hdecode)

end Sys2Proof

namespace Sys2Proof

/-! ## The invariant (spec/10_state.md R15, R23, spec/41_alu.md R93) -/

namespace Machine

/-- spec/60_exceptions.md R121, R123: the two faults of the common fetch, from a `pc` in its range. -/
theorem State.raisedByPrograms_of_fetchInstr {s : State} {f : Fault} (hpc : s.pc ≤ 256)
    (h : s.fetchInstr = .error f) : f.raisedByPrograms := by
  have hf := s.fetches
  rw [h] at hf
  cases hf with
  | opcodeOutside hout => exact Nat.le_antisymm hpc hout
  | count3 _ hcount => exact kindOf_unknown_of_count hcount
  | operandOutside => rfl
  | unknown _ _ hkind => exact hkind

/-- Fault entry keeps the invariant, for a fault that a program can raise. -/
theorem State.Inv.raise {s : State} {f : Fault} (hs : s.Inv) (hf : f.raisedByPrograms) : (s.raise f).Inv where
  memory := hs.memory
  pcRange := hs.pcRange
  noRecord h := absurd rfl h
  record _ := ⟨f, rfl, hf⟩
  haltedBelow := nofun

theorem Completes.wf {i : Instr} {s t : State} (h : Completes s i t) (hs : s.mem.wf = true) : t.mem.wf = true := by
  cases h with
  | push n | call n => exact Memory.wf_write _ (s.sp - 1).isLt hs
  | _ => exact hs

/-- spec/10_state.md R17: `pc` advances by the width of the instruction at most, or it is loaded with a byte. -/
theorem Completes.pc_le {i : Instr} {s t : State} (h : Completes s i t) (hin : s.pc + instrWidth i ≤ 256) :
    t.pc ≤ 256 := by
  cases h with
  | call n => exact (s.decSp.reg n).isLt.le
  | ret => exact (s.mem.read s.sp.toNat).isLt.le
  | hlt => exact (Nat.le_add_right s.pc 1).trans hin
  | _ => exact hin

theorem Completes.inv {i : Instr} {s t : State} (h : Completes s i t) (hs : s.Inv) (hrun : s.runState = .running)
    (hin : s.pc + instrWidth i ≤ 256) : t.Inv where
  memory := h.wf hs.memory
  pcRange := h.pc_le hin
  noRecord _ := h.fault_eq.trans (hs.noRecord (by rw [hrun]; decide))
  record hfaulted := absurd hfaulted (h.runState_ne_faulted (by rw [hrun]; decide))
  haltedBelow hhalted := by
    obtain rfl := (h.runState_eq_halted_iff (by rw [hrun]; decide)).mp hhalted
    cases h
    exact Nat.le_of_lt_succ hin

theorem raisedByPrograms_invalidRegister {r : Byte} (h : 7 < r.toNat) : (Fault.invalidRegister r).raisedByPrograms := h

end Machine

open Machine in
/-- Settles O39. A step that fetches an instruction fetched all its bytes below address 256, so the advance stays in
range; the faults of the fetch and of the register check are those that a program can raise. -/
theorem everyStepKeepsTheInvariant : Obligations.EveryStepKeepsTheInvariant := by
  intro s t hs hstep
  obtain ⟨-, rfl⟩ | ⟨hrun, i, hfetch, hexec⟩ | ⟨-, f, hfetch, rfl⟩ := step_cases hstep
  · exact hs
  · obtain ⟨r, -, hbad, rfl⟩ | hcompletes := exec_cases hexec
    · exact hs.raise (raisedByPrograms_invalidRegister hbad)
    · exact hcompletes.inv hs hrun (State.fetchInstr_eq_ok.mp hfetch).1
  · exact hs.raise (State.raisedByPrograms_of_fetchInstr hs.pcRange hfetch)

open Machine in
/-- Settles O38. Right after reset the core is RUNNING at address 0 without a fault, and an image of 256 cells is a
memory in canonical form. -/
theorem invariantHoldsAtReset : Obligations.InvariantHoldsAtReset := by
  refine ⟨⟨rfl, Nat.zero_le _, fun _ => rfl, nofun, nofun⟩, fun gprReset memImage => ?start⟩
  have hlen : 0 + memImage.toList.length ≤ 256 := by rw [Vector.length_toList]
  exact ⟨Memory.wf_ofBytes hlen, Nat.zero_le _, fun _ => rfl, nofun, nofun⟩

end Sys2Proof

namespace Sys2Proof

/-! ## Every step and every run answers a next state (spec/10_state.md R22, spec/70_reset_and_hazards.md R152) -/

namespace Machine

theorem exists_step_eq_next (s : State) : ∃ t, step s = .next t := by
  cases hs : s.runState with
  | running =>
    cases hf : s.fetchInstr with
    | ok i => exact step_fetched hs hf ▸ exists_exec_eq_next i s
    | error f => exact ⟨_, step_fetch_fault hs hf⟩
  | halted | faulted => exact ⟨s, by rw [step, hs]⟩

/-- R22: in HALTED and FAULTED nothing changes. -/
theorem step_stopped {s : State} (hs : s.runState ≠ .running) : step s = .next s := by
  rw [step]
  cases h : s.runState with
  | running => exact absurd h hs
  | halted | faulted => rfl

theorem run_stopped {s : State} (hs : s.runState ≠ .running) (k : Nat) : Sys2Proof.core.run k s = .next s := by
  induction k with
  | zero => exact run_zero s
  | succ k ih => rw [run_succ k (step_stopped hs), ih]

theorem exists_run_eq_next (k : Nat) (s : State) : ∃ t, Sys2Proof.core.run k s = .next t := by
  induction k generalizing s with
  | zero => exact ⟨s, run_zero s⟩
  | succ k ih =>
    obtain ⟨t, hstep⟩ := exists_step_eq_next s
    rw [run_succ k hstep]
    exact ih t

/-- R22, R23: how the run state and the fault record of a RUNNING core can end a step. -/
theorem step_running_cases {s t : State} (hs : s.runState = .running) (h : step s = .next t) :
    (t.runState = .running ∧ t.fault = s.fault) ∨ (t.runState = .halted ∧ t.fault = s.fault) ∨
      (t.runState = .faulted ∧ ∃ f, t.fault = some f) := by
  obtain ⟨hstopped, -⟩ | ⟨-, i, -, hexec⟩ | ⟨-, f, -, rfl⟩ := step_cases h
  · exact absurd hs hstopped
  · obtain ⟨r, -, -, rfl⟩ | hcompletes := exec_cases hexec
    · exact .inr (.inr ⟨rfl, _, rfl⟩)
    · obtain hsame | ⟨-, hhalted⟩ := hcompletes.runState_cases
      · exact .inl ⟨hsame.trans hs, hcompletes.fault_eq⟩
      · exact .inr (.inl ⟨hhalted, hcompletes.fault_eq⟩)
  · exact .inr (.inr ⟨rfl, f, rfl⟩)

end Machine

open Machine in
/-- Settles O28. A step of a stopped core answers the same state, and a run repeats that step. -/
theorem stoppedCoreNeverChanges : Obligations.StoppedCoreNeverChanges := fun _ hs =>
  ⟨step_stopped hs, run_stopped hs⟩

open Machine in
/-- Settles O29. An instruction completes or enters a fault, and a fetch that fails enters one. -/
theorem runningCoreContinuesHaltsOrFaults : Obligations.RunningCoreContinuesHaltsOrFaults := by
  intro s hs
  obtain ⟨t, hstep⟩ := exists_step_eq_next s
  exact ⟨t, hstep, step_running_cases hs hstep⟩

open Machine in
/-- Settles O30. Every step answers a next state, so by induction every run does. -/
theorem noRunEndsInAModelStop : Obligations.NoRunEndsInAModelStop := exists_run_eq_next

end Sys2Proof

namespace Sys2Proof

/-! ## The output channel (spec/10_state.md R24) -/

namespace Machine

/-- R24: an instruction that completes appends at most one byte. -/
theorem Completes.out_cases {i : Instr} {s t : State} (h : Completes s i t) :
    t.out = s.out ∨ ∃ v, t.out = s.out ++ [v] := by
  cases h with
  | prn n => exact .inr ⟨s.reg n, rfl⟩
  | _ => exact .inl rfl

theorem step_out_cases {s t : State} (h : step s = .next t) : t.out = s.out ∨ ∃ v, t.out = s.out ++ [v] := by
  obtain ⟨-, rfl⟩ | ⟨-, i, -, hexec⟩ | ⟨-, f, -, rfl⟩ := step_cases h
  · exact .inl rfl
  · obtain ⟨r, -, -, rfl⟩ | hcompletes := exec_cases hexec
    · exact .inl rfl
    · exact hcompletes.out_cases
  · exact .inl rfl

theorem step_out {s t : State} (h : step s = .next t) : ∃ emitted, t.out = s.out ++ emitted ∧ emitted.length ≤ 1 := by
  obtain hsame | ⟨v, hv⟩ := step_out_cases h
  · exact ⟨[], by rw [hsame, List.append_nil], Nat.zero_le 1⟩
  · exact ⟨[v], hv, le_rfl⟩

end Machine

open Machine in
/-- Settles O34, by induction on the number of steps, of which each appends at most one byte. -/
theorem outputOnlyGrows : Obligations.OutputOnlyGrows := by
  intro k
  induction k with
  | zero =>
    intro s t h
    cases (run_zero s).symm.trans h
    exact ⟨[], (List.append_nil _).symm, le_rfl⟩
  | succ k ih =>
    intro s t h
    obtain ⟨u, hstep⟩ := exists_step_eq_next s
    rw [run_succ k hstep] at h
    obtain ⟨first, hu, hfirst⟩ := step_out hstep
    obtain ⟨later, ht, hlater⟩ := ih u t h
    refine ⟨first ++ later, by rw [ht, hu, List.append_assoc], ?_⟩
    rw [List.length_append]
    omega

theorem Machine.mem_decimalDigits_le {v : Byte} {d : Nat} (h : d ∈ Machine.decimalDigits v) : d ≤ 9 := by
  have hv := v.isLt
  rw [Machine.decimalDigits] at h
  split_ifs at h <;> simp only [List.mem_cons, List.not_mem_nil, or_false] at h <;> omega

open Machine in
/-- Settles O35. With three or two digits the first one counts hundreds or tens of a value that has some. -/
theorem outputDigitsHaveNoLeadingZero : Obligations.OutputDigitsHaveNoLeadingZero := by
  refine fun v => ⟨fun d => mem_decimalDigits_le, foldl_decimalDigits v, fun h => ?_⟩
  rw [decimalDigits] at h ⊢
  split_ifs at h ⊢ <;> simp only [List.head?_cons, Option.some.injEq] at h
  · omega
  · omega
  · exact ⟨BitVec.eq_of_toNat_eq h, by rw [h]⟩

end Sys2Proof

namespace Sys2Proof

/-! ## Placing an instruction where the next step fetches it (spec/40_fetch_decode_execute.md section 1) -/

namespace Machine

/-- Where an instruction's word is placed, and three bytes fit, the instruction is fetched. -/
theorem State.fetchInstr_of_placed {t : State} {m : Memory} {i : Instr} (hm : m.wf = true) (hpc : t.pc + 3 ≤ 256)
    (hmem : t.mem = m.writeBytes t.pc (wordBytes (8 * (encode i).length) (wordOfBytes (encode i)))) :
    t.fetchInstr = .ok i := by
  have hlen := length_encode_le i
  rw [wordBytes_encode] at hmem
  rw [State.fetchInstr_eq_ok, ← length_encode]
  refine ⟨by omega, List.ext_getElem (by rw [List.length_map, List.length_range']) fun k _ hk => ?_⟩
  rw [List.getElem_map, List.getElem_range', Nat.one_mul, hmem,
    Memory.read_writeBytes _ hm (Nat.lt_of_lt_of_le hk (by rw [List.length_append]; omega)),
    List.getElem_append_left hk]
  rw [List.length_append, List.length_replicate]
  omega

end Machine

open Machine in
/-- Settles O27. Three bytes fit at the address taken, `pc` or 0, and the word placed there begins with the
instruction's encoding. -/
theorem placedInstructionIsTheNextOneRun : Obligations.PlacedInstructionIsTheNextOneRun := by
  intro s i hm
  refine ⟨step_fetched rfl (State.fetchInstr_of_placed hm ?fits rfl), rfl, rfl, fun hpc => ?keeps⟩
  case fits =>
    rw [State.withFetchWord]
    simp only
    split_ifs with h
    · exact h
    · decide
  case keeps => exact if_pos (Nat.add_le_add_right hpc 3)

end Sys2Proof

namespace Sys2Proof

/-! ## Memory and the ALU (spec/20_memory.md R30 to R32, spec/41_alu.md R88 to R92) -/

namespace Machine

theorem Memory.read_cons_same (k : Nat) (w : Byte) (rest : Memory) : Memory.read ((k, w) :: rest) k = w :=
  if_pos rfl

theorem Memory.read_cons_other {k a : Nat} (w : Byte) (rest : Memory) (h : k ≠ a) :
    Memory.read ((k, w) :: rest) a = Memory.read rest a :=
  if_neg h

/-- A cell in canonical form is listed if it does not read as unlisted, so it does not stand below the first entry. -/
theorem Memory.first_le_of_read_ne {k a : Nat} {w : Byte} {rest : Memory} (hm : Memory.wf ((k, w) :: rest) = true)
    (h : Memory.read ((k, w) :: rest) a ≠ Config.unlistedByte) : k ≤ a := by
  obtain ⟨-, -, hk, -⟩ := Memory.wf_cons.mp hm
  by_contra hlt
  refine h (Memory.read_unlisted fun c hc => ?_)
  obtain rfl | hc := List.mem_cons.mp hc
  · exact Nat.lt_of_not_le hlt
  · exact (Nat.lt_of_not_le hlt).trans (hk c hc)

/-- Canonical memories that read the same list the same first address. -/
theorem Memory.first_le_of_read_eq {k k' : Nat} {w w' : Byte} {rest rest' : Memory}
    (hm : Memory.wf ((k, w) :: rest) = true) (hm' : Memory.wf ((k', w') :: rest') = true)
    (h : ∀ a, Memory.read ((k, w) :: rest) a = Memory.read ((k', w') :: rest') a) : k' ≤ k := by
  obtain ⟨-, hw, -, -⟩ := Memory.wf_cons.mp hm
  refine Memory.first_le_of_read_ne hm' ?_
  rwa [← h k, Memory.read_cons_same]

/-- A canonical memory whose cells all read as unlisted lists none. -/
theorem Memory.eq_nil_of_read {m : Memory} (hm : m.wf = true) (h : ∀ a, m.read a = Config.unlistedByte) : m = [] := by
  cases m with
  | nil => rfl
  | cons c rest =>
    obtain ⟨-, hw, -, -⟩ := Memory.wf_cons.mp hm
    exact absurd ((Memory.read_cons_same ..).symm.trans (h c.1)) hw

theorem Memory.read_rest {k a : Nat} {w : Byte} {rest : Memory} (hm : Memory.wf ((k, w) :: rest) = true) :
    Memory.read rest a = if k = a then Config.unlistedByte else Memory.read ((k, w) :: rest) a := by
  obtain ⟨-, -, hk, -⟩ := Memory.wf_cons.mp hm
  split_ifs with h
  · exact Memory.read_unlisted fun c hc => h ▸ hk c hc
  · exact (Memory.read_cons_other w rest h).symm

/-- By induction on the list: equal reads make the first entries equal, and then the rests read the same. -/
theorem Memory.ext_read {m m' : Memory} (hm : m.wf = true) (hm' : m'.wf = true) (h : ∀ a, m.read a = m'.read a) :
    m = m' := by
  induction m generalizing m' with
  | nil => exact (Memory.eq_nil_of_read hm' fun a => (h a).symm).symm
  | cons c rest ih =>
    cases m' with
    | nil => exact Memory.eq_nil_of_read hm h
    | cons c' rest' =>
      obtain ⟨k, w⟩ := c
      obtain ⟨k', w'⟩ := c'
      obtain rfl : k = k' := Nat.le_antisymm (Memory.first_le_of_read_eq hm' hm fun a => (h a).symm)
        (Memory.first_le_of_read_eq hm hm' h)
      obtain rfl : w = w' := by
        have hk := h k
        rwa [Memory.read_cons_same, Memory.read_cons_same] at hk
      obtain ⟨-, -, -, hr⟩ := Memory.wf_cons.mp hm
      obtain ⟨-, -, -, hr'⟩ := Memory.wf_cons.mp hm'
      rw [ih hr hr' fun a => by rw [Memory.read_rest hm, Memory.read_rest hm', h a]]

theorem State.memWrite_inside (s : State) {addr : Nat} (v : Nat) (h : addr ≤ 255) :
    s.memWrite addr v = .ok (s.setMem (s.mem.write addr (trunc8 v))) :=
  if_pos h

theorem toNat_aluResult_sub (a b : Byte) : (aluResult .sub a b).toNat = (a.toNat + 256 - b.toNat) % 256 :=
  toNat_trunc8 _

/-- spec/41_alu.md R90: the quotient of bytes is a byte, so the truncation loses nothing. -/
theorem toNat_aluResult_div (a b : Byte) : (aluResult .div a b).toNat = a.toNat / b.toNat := by
  have ha := a.isLt
  exact (toNat_trunc8 _).trans (Nat.mod_eq_of_lt ((Nat.div_le_self ..).trans_lt ha))

/-- spec/41_alu.md R92: modulo 256, `e + b = a` has the one solution `a - b`. -/
theorem aluResult_add_eq_iff {a b e : Byte} : aluResult .add e b = a ↔ e = aluResult .sub a b := by
  have ha := a.isLt
  have hb := b.isLt
  have he := e.isLt
  rw [← BitVec.toNat_inj, ← BitVec.toNat_inj, toNat_aluResult_add, toNat_aluResult_sub]
  omega

theorem alu_div_zero (a : Byte) : alu AluOp.div.selector a 0 = .error .divisionByZero := rfl

theorem alu_div (a : Byte) {b : Byte} (h : b ≠ 0) : alu AluOp.div.selector a b = .ok (aluResult .div a b) := by
  have hline : faultDiv0 AluOp.div.selector b = false := by
    rw [faultDiv0, beq_eq_false_iff_ne.mpr h, Bool.and_false]
  simp only [alu, aluOp_selector, hline, Bool.false_eq_true, if_false]

/-- spec/41_alu.md R86: the selectors 4 to 7 name no operation. -/
theorem aluOp_eq_none : ∀ op : BitVec 3, 4 ≤ op.toNat → aluOp op = none := by decide

theorem alu_unsupported {op : BitVec 3} (a b : Byte) (h : 4 ≤ op.toNat) :
    alu op a b = .error (.unsupportedOperation op) := by
  rw [alu, aluOp_eq_none op h]

end Machine

open Machine in
/-- Settles O5. The cells that do not read as the unlisted byte are the list's entries, and its order is rising. -/
theorem canonicalMemoriesThatReadEqualAreEqual : Obligations.CanonicalMemoriesThatReadEqualAreEqual :=
  fun _ _ => Memory.ext_read

open Machine in
/-- Settles O7. An access checks its address; inside the address space a write is `Memory.write` of the truncated
value. -/
theorem memoryReadsBackWhatWasWritten : Obligations.MemoryReadsBackWhatWasWritten := by
  intro s addr v hm
  refine ⟨fun h => ⟨s.memRead_outside h, s.memWrite_outside v h⟩, fun h => ⟨s.memRead_inside h, ?_⟩⟩
  refine ⟨_, trunc8 v, s.memWrite_inside v h, ?reads, toNat_trunc8 v, fun c hc => Memory.read_write_other _ _ hc,
    Memory.wf_write _ (Nat.lt_succ_of_le h) hm, rfl, rfl, rfl, rfl, rfl⟩
  case reads => rw [State.memRead_inside _ h, State.setMem_mem, Memory.read_write_same _ _ hm]

open Machine in
/-- Settles O9. Both parts are the one solution of `ADD(e, b) = a`. -/
theorem aluSubIsTheInverseOfAdd : Obligations.AluSubIsTheInverseOfAdd := by
  intro a b
  refine ⟨_, alu_sub a b, toNat_aluResult_sub a b, ?inverse, fun e he => ?unique⟩
  case inverse => rw [alu_add, aluResult_add_eq_iff.mpr rfl]
  case unique =>
    rw [alu_add] at he
    exact aluResult_add_eq_iff.mp (Except.ok.inj he)

open Machine in
/-- Settles O10. The quotient is the exact one, so its two bounds are those of the floor. -/
theorem aluDivisionAndUnsupportedSelectors : Obligations.AluDivisionAndUnsupportedSelectors := by
  refine fun a b => ⟨alu_div_zero a, fun hb => ⟨_, alu_div a hb, ?_⟩, fun op => alu_unsupported a b⟩
  have hpos : 0 < b.toNat := Nat.pos_of_ne_zero fun h => hb (BitVec.eq_of_toNat_eq h)
  rw [toNat_aluResult_div]
  exact ⟨Nat.div_mul_le_self .., Nat.lt_mul_of_div_lt (Nat.lt_succ_self _) hpos⟩

end Sys2Proof

namespace Sys2Proof

/-! ## MUL, ADD, PUSH, POP, CALL and HLT (spec/43_mul_add.md, 44_push_pop.md, 45_call_ret.md, 46_hlt_unknown.md) -/

namespace Machine

theorem exec_mul_regOperand (n k : Fin Config.nRegs) (s : State) :
    exec (.mul (regOperand n) (regOperand k)) s =
      .next ((s.setReg n (aluResult .mul (s.reg n) (s.reg k))).advance 3) := by
  rw [exec, execMul, aluToRegister_regOperand alu_mul, settle_ok]

theorem exec_mul_first_invalid {a : Byte} (b : Byte) (s : State) (h : 7 < a.toNat) :
    exec (.mul a b) s = .next (s.raise (.invalidRegister a)) := by
  rw [exec, execMul, aluToRegister_first_invalid _ b s h, settle_error]

theorem exec_mul_second_invalid (n : Fin Config.nRegs) {b : Byte} (s : State) (h : 7 < b.toNat) :
    exec (.mul (regOperand n) b) s = .next (s.raise (.invalidRegister b)) := by
  rw [exec, execMul, aluToRegister_second_invalid _ n s h, settle_error]

theorem exec_add_regOperand (n k : Fin Config.nRegs) (s : State) :
    exec (.add (regOperand n) (regOperand k)) s =
      .next ((s.setReg n (aluResult .add (s.reg n) (s.reg k))).advance 3) := by
  rw [exec, execAdd, aluToRegister_regOperand alu_add, settle_ok]

theorem exec_add_first_invalid {a : Byte} (b : Byte) (s : State) (h : 7 < a.toNat) :
    exec (.add a b) s = .next (s.raise (.invalidRegister a)) := by
  rw [exec, execAdd, aluToRegister_first_invalid _ b s h, settle_error]

theorem exec_add_second_invalid (n : Fin Config.nRegs) {b : Byte} (s : State) (h : 7 < b.toNat) :
    exec (.add (regOperand n) b) s = .next (s.raise (.invalidRegister b)) := by
  rw [exec, execAdd, aluToRegister_second_invalid _ n s h, settle_error]

theorem State.decSp_x (s : State) : s.decSp.x = s.x.set 7 (s.x[7] - 1) := rfl

theorem State.incSp_x (s : State) : s.incSp.x = s.x.set 7 (s.x[7] + 1) := rfl

theorem State.toNat_sp_decSp (s : State) : s.decSp.sp.toNat = s.pushCell := by
  rw [State.sp_decSp, State.toNat_sp_sub_one]

/-- spec/10_state.md R19: SP is register 7, so writing another register leaves it. -/
theorem State.sp_setReg_other (s : State) {n : Fin Config.nRegs} (v : Byte) (hn : n ≠ Config.spIndex) :
    (s.setReg n v).sp = s.sp :=
  State.reg_setReg_other s n v hn.symm

theorem State.sp_setReg_same (s : State) (v : Byte) : (s.setReg Config.spIndex v).sp = v :=
  State.reg_setReg_same s Config.spIndex v

end Machine

open Machine in
/-- Settles O13. The result is the ALU's, of the values before the write. -/
theorem mulMultipliesModulo256 : Obligations.MulMultipliesModulo256 := fun s =>
  ⟨fun n k => ⟨_, toNat_aluResult_mul (s.reg n) (s.reg k), exec_mul_regOperand n k s⟩,
    fun _ b => exec_mul_first_invalid b s, fun n _ => exec_mul_second_invalid n s⟩

open Machine in
/-- Settles O14. The result is the ALU's, of the values before the write. -/
theorem addAddsModulo256 : Obligations.AddAddsModulo256 := fun s =>
  ⟨fun n k => ⟨_, toNat_aluResult_add (s.reg n) (s.reg k), exec_add_regOperand n k s⟩,
    fun _ b => exec_add_first_invalid b s, fun n _ => exec_add_second_invalid n s⟩

open Machine in
/-- Settles O15. The store goes to the cell of the decremented SP, and no other cell changes. -/
theorem pushStoresAtTheDecrementedSp : Obligations.PushStoresAtTheDecrementedSp := by
  intro s
  refine ⟨fun n hm => ⟨_, exec_push_regOperand n s, s.decSp_x, s.toNat_sp_decSp, ?cell, fun c hc => ?other,
    rfl, rfl, rfl, rfl⟩, fun a => exec_push_invalid s⟩ <;>
    rw [State.advance_mem, State.setMem_mem, State.toNat_sp_sub_one]
  case cell => exact Memory.read_write_same _ _ hm
  case other => exact Memory.read_write_other _ _ hc

open Machine in
/-- Settles O17. The return address goes to the cell of the decremented SP, truncated to a byte, and no other cell
changes. -/
theorem callPushesTheReturnAddressAndJumps : Obligations.CallPushesTheReturnAddressAndJumps := by
  intro s
  refine ⟨fun n hm => ⟨_, exec_call_regOperand n s, s.decSp_x, s.toNat_sp_decSp, ?cell, fun c hc => ?other,
    rfl, rfl, rfl, rfl⟩, fun a => exec_call_invalid s⟩ <;>
    rw [State.setPc_mem, State.setMem_mem, State.toNat_sp_sub_one]
  case cell => rw [Memory.read_write_same _ _ hm, toNat_trunc8]
  case other => exact Memory.read_write_other _ _ hc

open Machine in
/-- Settles O16. SP is read after the load, so the increment sees the byte loaded exactly where `n` is 7. -/
theorem popLoadsAtSpThenIncrements : Obligations.PopLoadsAtSpThenIncrements := by
  intro s
  refine ⟨fun n => ⟨_, exec_pop_regOperand n s, fun hn => ?other, ?sp, rfl, rfl, rfl, rfl, rfl⟩,
    fun a => exec_pop_invalid s⟩
  case other =>
    change (s.x.set n _).set 7 ((s.setReg n _).sp + 1) = _
    rw [State.sp_setReg_other s _ hn]
    rfl
  case sp =>
    rintro rfl
    change (s.x.set 7 _).set 7 ((s.setReg Config.spIndex _).sp + 1) = _
    rw [State.sp_setReg_same, Vector.set_set]
    rfl

open Machine in
/-- Settles O19. -/
theorem hltOnlyHalts : Obligations.HltOnlyHalts := exec_hlt

end Sys2Proof

namespace Sys2Proof

/-! ## Frames (spec/10_state.md R13, spec/20_memory.md R34) -/

namespace Machine

theorem ne_of_val_ne_toNat_regOperand {k n : Fin Config.nRegs} (h : k.val ≠ (regOperand n).toNat) : k ≠ n := by
  rintro rfl
  exact h (toNat_regOperand k).symm

theorem State.reg_incSp_other (s : State) {k : Fin Config.nRegs} (hk : k ≠ Config.spIndex) :
    s.incSp.reg k = s.reg k := by
  rw [State.reg_incSp, if_neg hk]

theorem Completes.reg_eq {i : Instr} {s t : State} (h : Completes s i t) {k : Fin Config.nRegs}
    (hk : k.val ∉ registersWritten i) : t.reg k = s.reg k := by
  cases h with
  | ldi n | mul n | add n =>
    exact State.reg_setReg_other s n _ (ne_of_val_ne_toNat_regOperand (List.ne_of_not_mem_cons hk))
  | prn | hlt => rfl
  | push | call => exact s.reg_decSp_other (Fin.ne_of_val_ne (List.ne_of_not_mem_cons hk))
  | ret => exact s.reg_incSp_other (Fin.ne_of_val_ne (List.ne_of_not_mem_cons hk))
  | pop n =>
    obtain ⟨hn, h7⟩ := List.ne_and_not_mem_of_not_mem_cons hk
    calc (s.setReg n _).incSp.reg k
      _ = (s.setReg n _).reg k := State.reg_incSp_other _ (Fin.ne_of_val_ne (List.ne_of_not_mem_cons h7))
      _ = s.reg k := State.reg_setReg_other s n _ (ne_of_val_ne_toNat_regOperand hn)

theorem Completes.read_eq {i : Instr} {s t : State} (h : Completes s i t) {c : Nat} (hc : c ∉ cellsWritten s i) :
    t.mem.read c = s.mem.read c := by
  cases h with
  | push | call =>
    exact Memory.read_write_other _ _ (s.toNat_sp_sub_one ▸ List.ne_of_not_mem_cons hc)
  | _ => rfl

end Machine

open Machine in
/-- Settles O22. Fault entry changes no register; of an instruction that completes, each row writes where the table
says. -/
theorem registersOutsideTheWriteTableAreUnchanged : Obligations.RegistersOutsideTheWriteTableAreUnchanged := by
  intro i s t hexec k hk
  obtain ⟨r, -, -, rfl⟩ | hcompletes := exec_cases hexec
  · rfl
  · exact hcompletes.reg_eq hk

open Machine in
/-- Settles O24. Fault entry changes no cell; of the instructions that complete, PUSH and CALL alone store. -/
theorem cellsOutsideTheStoreTableAreUnchanged : Obligations.CellsOutsideTheStoreTableAreUnchanged := by
  intro i s t hexec c hc
  obtain ⟨r, -, -, rfl⟩ | hcompletes := exec_cases hexec
  · rfl
  · exact hcompletes.read_eq hc

end Sys2Proof

namespace Sys2Proof

/-! ## The stack's pairing laws (spec/44_push_pop.md R107, spec/45_call_ret.md R112) -/

namespace Machine

theorem step_pop_regOperand {s : State} {n : Fin Config.nRegs} (hs : s.runState = .running) (hpc : s.pc ≤ 254)
    (hop : s.mem.read s.pc = 0x46) (ha : s.mem.read (s.pc + 1) = regOperand n) :
    step s = .next ((s.setReg n (s.mem.read s.sp.toNat)).incSp.advance 2) := by
  have hfetch : s.fetchInstr = .ok (.pop (regOperand n)) :=
    State.fetchInstr_of_build hop (Nat.succ_le_succ hpc) (congrArg (fun a => some (Instr.pop a)) ha)
  rw [step_fetched hs hfetch, exec_pop_regOperand]

theorem State.setReg_reg (s : State) (n : Fin Config.nRegs) : s.setReg n (s.reg n) = s :=
  congrArg (fun x => { s with x := x }) (Vector.set_getElem_self n.isLt)

/-- spec/10_state.md R21: the increment undoes the decrement. -/
theorem State.reg_incSp_of_decSp {s t : State} (h : ∀ k, t.reg k = s.decSp.reg k) (k : Fin Config.nRegs) :
    t.incSp.reg k = s.reg k := by
  rw [State.reg_incSp]
  split_ifs with hk
  · rw [State.sp, h, hk, ← State.sp, State.sp_decSp, BitVec.sub_add_cancel]
    rfl
  · rw [h, s.reg_decSp_other hk]

end Machine

open Machine in
/-- Settles O40. The POP's own bytes are not overwritten, so it is fetched, and it loads the byte pushed, which is the
register as it was when it was pushed; then the increment undoes the decrement. -/
theorem pushThenPopRestoresEveryRegister : Obligations.PushThenPopRestoresEveryRegister := by
  intro s n hs hm hpc hop ha hop' ha' hcell2 hcell3
  obtain ⟨hcompletes, -⟩ := pushStoresAtTheDecrementedSp s
  obtain ⟨t, hexec, hx, hsp, hstored, hother, htpc, hout, hrun, hfault⟩ := hcompletes n hm
  have hpush : step s = .next t := by
    rw [step_push_regOperand hs (hpc.trans (by decide)) hop ha, ← exec_push_regOperand, hexec]
  have hloaded : t.setReg n (t.mem.read t.sp.toNat) = t := by
    rw [show t.sp.toNat = s.pushCell from hsp, hstored]
    exact t.setReg_reg n
  have hpop : step t = .next (t.incSp.advance 2) := by
    rw [← congrArg State.incSp hloaded]
    refine step_pop_regOperand (hrun.trans hs) ?below ?opcode ?operand <;> rw [htpc]
    case below => exact Nat.add_le_add_right hpc 2
    case opcode => rw [hother _ hcell2.symm, hop']
    case operand => rw [hother _ hcell3.symm, ha']
  have hx' : (t.incSp.advance 2).x = s.x :=
    State.x_eq_of_reg (State.reg_incSp_of_decSp fun k => congrArg (·[k]) hx)
  exact ⟨t, _, hpush, hpop, hx', congrArg (· + 2) htpc, hstored, hother, hout, hrun.trans hs, hfault⟩

open Machine in
/-- Settles O41. RET pops the byte CALL stored, `pc + 2` modulo 256, and increments the SP that CALL decremented. -/
theorem retReturnsAfterTheCall : Obligations.RetReturnsAfterTheCall := by
  intro s t u n hm hpc hcall hsp hcell
  obtain ⟨hcompletes, -⟩ := callPushesTheReturnAddressAndJumps s
  obtain ⟨t', hcall', hx, hpush, hret, -⟩ := hcompletes n hm
  cases hcall.symm.trans hcall'
  refine ⟨_, retPopsTheProgramCounter u, ?pc, ?sp⟩
  case pc =>
    change (u.mem.read u.x[7].toNat).toNat = _
    rw [hsp, hpush, hcell, hret]
    split_ifs <;> omega
  case sp =>
    rw [Vector.getElem_set_self, hsp, hx, Vector.getElem_set_self, BitVec.sub_add_cancel]

end Sys2Proof

namespace Sys2Proof

/-! ## Reset (spec/10_state.md R28) -/

namespace Machine

theorem State.start_x_castSucc (gprReset : Vector Byte 7) (memImage : Vector Byte 256) (n : Fin 7) :
    (State.start gprReset memImage).x[n.castSucc] = gprReset[n] := by
  fin_cases n <;> rfl

theorem State.read_start (gprReset : Vector Byte 7) (memImage : Vector Byte 256) (a : Nat) (h : a < 256) :
    (State.start gprReset memImage).mem.read a = memImage[a] := by
  have hread : (Memory.ofBytes 0 memImage.toList).read (0 + a) = memImage.toList[a]'(by rwa [Vector.length_toList]) :=
    Memory.read_ofBytes _
  rwa [Nat.zero_add, Vector.getElem_toList] at hread

end Machine

open Machine in
/-- Settles O36. Reset answers the start state, which does not depend on the state before. -/
theorem resetInstallsTheStartState : Obligations.ResetInstallsTheStartState := fun _ gprReset memImage =>
  ⟨State.start gprReset memImage, rfl, rfl, State.start_x_castSucc gprReset memImage, rfl,
    State.read_start gprReset memImage, rfl, rfl, rfl⟩

end Sys2Proof

namespace Sys2Proof

/-! ## The step and the opcode at `pc` (spec/40_fetch_decode_execute.md R78, spec/10_state.md R15) -/

namespace Machine

theorem State.exists_encode_eq_of_fetchInstr {s : State} {i : Instr} (h : s.fetchInstr = .ok i) :
    ∃ operands, encode i = s.mem.read s.pc :: operands :=
  ⟨_, State.map_read_eq_encode.mp (State.fetchInstr_eq_ok.mp h).2⟩

/-- spec/30_encoding.md R50: the width of the instruction fetched, by the value of its opcode. -/
theorem State.instrWidth_of_fetchInstr {s : State} {i : Instr} (h : s.fetchInstr = .ok i) :
    instrWidth i = 1 + (s.mem.read s.pc).toNat / 64 := by
  obtain ⟨operands, henc⟩ := State.exists_encode_eq_of_fetchInstr h
  rw [instrWidth_of_encode henc, operandCount_eq, Nat.add_comm]

theorem State.fetchInstr_eq_hlt {s : State} : s.fetchInstr = .ok .hlt ↔ s.pc ≤ 255 ∧ s.mem.read s.pc = 0x01 := by
  rw [State.fetchInstr_eq_ok]
  exact and_congr Nat.succ_le_succ_iff ⟨fun h => (List.cons.inj h).1, fun h => congrArg (fun v => [v]) h⟩

/-- R78: a RUNNING core comes to HALTED exactly where it fetches HLT. -/
theorem step_halted_iff {s t : State} (hs : s.runState = .running) (h : step s = .next t) :
    t.runState = .halted ↔ s.fetchInstr = .ok .hlt := by
  obtain ⟨hstopped, -⟩ | ⟨-, i, hfetch, hexec⟩ | ⟨-, f, hfetch, rfl⟩ := step_cases h
  · exact absurd hs hstopped
  · obtain ⟨t', hexec', -, hhalted⟩ := executionFaultsExactlyOnIllFormedInstructions i s hs
    cases hexec.symm.trans hexec'
    rw [hhalted, hfetch, Except.ok.injEq]
  · rw [hfetch]
    exact iff_of_false RunState.noConfusion nofun

/-- spec/10_state.md R17: `pc` leaves the address space only by a sequential advance. -/
theorem Completes.advance_of_pc_eq_256 {i : Instr} {s t : State} (h : Completes s i t) (hs : s.pc ≤ 255)
    (ht : t.pc = 256) : s.pc + instrWidth i = 256 ∧ t.runState = s.runState ∧
      ∀ opcode operands, encode i = opcode :: operands → opcode ∈ [(0x82 : Byte), 0x47, 0xA2, 0xA0, 0x45, 0x46] := by
  cases h with
  | call n => exact absurd ht (s.decSp.reg n).isLt.ne
  | ret => exact absurd ht (s.mem.read s.sp.toNat).isLt.ne
  | hlt => exact absurd ht (Nat.lt_succ_of_le hs).ne
  | _ =>
    refine ⟨ht, rfl, fun opcode operands henc => ?_⟩
    rw [← (List.cons.inj henc).1]
    decide

end Machine

open Machine in
/-- Settles O32. The step halts exactly where HLT is fetched, and HLT is its opcode byte alone. -/
theorem coreHaltsExactlyOnTheHltOpcode : Obligations.CoreHaltsExactlyOnTheHltOpcode := fun _ _ hs hstep =>
  (step_halted_iff hs hstep).trans State.fetchInstr_eq_hlt

open Machine in
/-- Settles O33. A fault keeps `pc`; of the instructions that complete, those that advance end at 255. -/
theorem pcReaches256OnlySequentially : Obligations.PcReaches256OnlySequentially := by
  intro s t hs hpc hstep ht
  obtain ⟨hstopped, -⟩ | ⟨-, i, hfetch, hexec⟩ | ⟨-, f, -, rfl⟩ := step_cases hstep
  · exact absurd hs hstopped
  · obtain ⟨r, -, -, rfl⟩ | hcompletes := exec_cases hexec
    · exact absurd ht (Nat.lt_succ_of_le hpc).ne
    · obtain ⟨hend, hrun, hop⟩ := hcompletes.advance_of_pc_eq_256 hpc ht
      obtain ⟨operands, henc⟩ := State.exists_encode_eq_of_fetchInstr hfetch
      rw [State.instrWidth_of_fetchInstr hfetch, ← Nat.add_assoc] at hend
      exact ⟨hend, hop _ operands henc, hrun.trans hs⟩
  · exact absurd ht (Nat.lt_succ_of_le hpc).ne

end Sys2Proof

namespace Sys2Proof

/-! ## The first fault (spec/60_exceptions.md R128) -/

namespace Machine

/-- R122: the operand whose check fails first. -/
def firstBadOperand (i : Instr) : Option Byte := (registerOperands i).find? fun r => 7 < r.toNat

theorem firstBadOperand_eq_none {i : Instr} : firstBadOperand i = none ↔ ∀ r ∈ registerOperands i, r.toNat ≤ 7 := by
  simp only [firstBadOperand, List.find?_eq_none, decide_eq_true_eq, Nat.not_lt]

/-- spec/92_eei_decisions.md D5: the operands are checked in their order. -/
theorem find?_bad_cons (a : Byte) (l : List Byte) :
    (a :: l).find? (fun r => 7 < r.toNat) = if 7 < a.toNat then some a else l.find? fun r => 7 < r.toNat := by
  split_ifs with h
  · exact List.find?_cons_of_pos (decide_eq_true h)
  · exact List.find?_cons_of_neg (by simpa using h)

/-- An instruction with one register operand reports that one. -/
theorem eq_of_find?_singleton {a r : Byte} (h : [a].find? (fun r => 7 < r.toNat) = some r) : r = a ∧ 7 < a.toNat := by
  rw [find?_bad_cons] at h
  split_ifs at h with hbad
  · exact ⟨(Option.some.inj h).symm, hbad⟩
  · cases h

/-- D5: of two register operands the second is reported only where the first names a register. -/
theorem find?_pair_cases {a b r : Byte} (h : [a, b].find? (fun r => 7 < r.toNat) = some r) :
    (r = a ∧ 7 < a.toNat) ∨ (∃ n, a = regOperand n) ∧ r = b ∧ 7 < b.toNat := by
  rw [find?_bad_cons] at h
  split_ifs at h with hbad
  · exact .inl ⟨(Option.some.inj h).symm, hbad⟩
  · exact .inr ⟨exists_regOperand (Nat.le_of_not_lt hbad), eq_of_find?_singleton h⟩

/-- R122, D5: an instruction with a bad operand enters the fault of the first one. -/
theorem exec_firstBadOperand {i : Instr} {r : Byte} (s : State) (h : firstBadOperand i = some r) :
    exec i s = .next (s.raise (.invalidRegister r)) := by
  cases i with
  | ldi a b =>
    obtain ⟨rfl, hbad⟩ := eq_of_find?_singleton h
    exact exec_ldi_invalid b s hbad
  | prn a =>
    obtain ⟨rfl, hbad⟩ := eq_of_find?_singleton h
    exact exec_prn_invalid s hbad
  | mul a b =>
    obtain ⟨rfl, hbad⟩ | ⟨⟨n, rfl⟩, rfl, hbad⟩ := find?_pair_cases h
    · exact exec_mul_first_invalid b s hbad
    · exact exec_mul_second_invalid n s hbad
  | add a b =>
    obtain ⟨rfl, hbad⟩ | ⟨⟨n, rfl⟩, rfl, hbad⟩ := find?_pair_cases h
    · exact exec_add_first_invalid b s hbad
    · exact exec_add_second_invalid n s hbad
  | push a =>
    obtain ⟨rfl, hbad⟩ := eq_of_find?_singleton h
    exact exec_push_invalid s hbad
  | pop a =>
    obtain ⟨rfl, hbad⟩ := eq_of_find?_singleton h
    exact exec_pop_invalid s hbad
  | call a =>
    obtain ⟨rfl, hbad⟩ := eq_of_find?_singleton h
    exact exec_call_invalid s hbad
  | ret | hlt => cases h

theorem exists_completes {i : Instr} (s : State) (h : firstBadOperand i = none) :
    ∃ t, exec i s = .next t ∧ Completes s i t := by
  obtain ⟨t, hexec⟩ := exists_exec_eq_next i s
  obtain ⟨r, hr, hbad, -⟩ | hcompletes := exec_cases hexec
  · exact absurd (firstBadOperand_eq_none.mp h r hr) hbad.not_ge
  · exact ⟨t, hexec, hcompletes⟩

/-- spec/30_encoding.md R57: an opcode of unknown kind is none of the nine. -/
theorem not_mem_of_kindOf_unknown {opcode : Byte} (h : kindOf opcode = .unknown) :
    opcode ∉ [(0x82 : Byte), 0x47, 0xA2, 0xA0, 0x45, 0x46, 0x50, 0x11, 0x01] := by
  intro hmem
  simp only [List.mem_cons, List.not_mem_nil, or_false] at hmem
  rcases hmem with rfl | rfl | rfl | rfl | rfl | rfl | rfl | rfl | rfl <;> exact absurd h (by decide)

/-- R128, positions 1 to 5: the fault of a fetch that fails. -/
theorem State.firstFault_of_fetch_fault {s : State} {f : Fault} (hpc : s.pc ≤ 256) (h : s.fetchInstr = .error f) :
    s.firstFault = some f := by
  have hf := s.fetches
  rw [h] at hf
  rw [State.firstFault]
  cases hf with
  | opcodeOutside hout =>
    obtain heq : s.pc = 256 := Nat.le_antisymm hpc hout
    rw [if_pos heq, heq]
  | count3 hin hcount =>
    rw [operandCount_eq] at hcount
    rw [if_neg (by omega), if_pos (by omega)]
  | operandOutside hin hcount hout =>
    have hlt := (s.mem.read s.pc).isLt
    rw [operandCount_eq] at hcount hout
    rw [if_neg (by omega), if_neg (by omega)]
    by_cases hpc255 : s.pc = 255
    · rw [if_pos (by omega)]
    · rw [if_neg (by omega), if_pos (by omega)]
  | unknown hcount hin hkind =>
    have hlt := (s.mem.read s.pc).isLt
    rw [operandCount_eq] at hcount hin
    rw [if_neg (by omega), if_neg (by omega), if_neg (by omega), if_neg (by omega),
      if_pos (not_mem_of_kindOf_unknown hkind)]

/-- R128, positions 1 to 5, do not apply to an instruction that is fetched. -/
theorem State.firstFault_of_fetched {s : State} {i : Instr} (h : s.fetchInstr = .ok i) :
    s.firstFault = (firstBadOperand i).map .invalidRegister := by
  obtain ⟨hin, hbytes⟩ := State.fetchInstr_eq_ok.mp h
  have hwidth := State.instrWidth_of_fetchInstr h
  have hle := instrWidth_le i
  rw [State.firstFault, if_neg (by omega), if_neg (by omega), if_neg (by omega), if_neg (by omega)]
  cases i with
  | ldi a b =>
    obtain ⟨hop, ha, -⟩ := by
      simpa only [instrWidth, encode, State.map_read_range'_succ, List.cons.injEq] using hbytes
    simp [hop, ha, firstBadOperand, registerOperands, apply_ite (Option.map _)]
  | mul a b | add a b =>
    obtain ⟨hop, ha, hb, -⟩ := by
      simpa only [instrWidth, encode, State.map_read_range'_succ, List.cons.injEq] using hbytes
    simp [hop, ha, hb, firstBadOperand, registerOperands, find?_bad_cons, apply_ite (Option.map _)]
  | prn a | push a | pop a | call a =>
    obtain ⟨hop, ha, -⟩ := by
      simpa only [instrWidth, encode, State.map_read_range'_succ, List.cons.injEq] using hbytes
    simp [hop, ha, firstBadOperand, registerOperands, apply_ite (Option.map _)]
  | ret | hlt =>
    obtain ⟨hop, -⟩ := List.cons.inj hbytes
    simp [hop, firstBadOperand, registerOperands]

theorem FaultEntry.of_raise (s : State) (f : Fault) : FaultEntry s (s.raise f) f :=
  ⟨rfl, rfl, rfl, rfl, rfl, rfl⟩

end Machine

open Machine in
/-- Settles O31. A fetch that fails has a fault of the positions 1 to 5; an instruction that is fetched has the fault
of its first bad register operand, positions 6 and 7, or completes. -/
theorem stepReportsTheFirstFaultPrecisely : Obligations.StepReportsTheFirstFaultPrecisely := by
  intro s hs hpc
  cases hfetch : s.fetchInstr with
  | error f =>
    rw [State.firstFault_of_fetch_fault hpc hfetch]
    exact ⟨_, step_fetch_fault hs hfetch, .of_raise s f⟩
  | ok i =>
    rw [State.firstFault_of_fetched hfetch, step_fetched hs hfetch]
    cases hbad : firstBadOperand i with
    | some r => exact ⟨_, exec_firstBadOperand s hbad, .of_raise s _⟩
    | none =>
      obtain ⟨t, hexec, hcompletes⟩ := exists_completes s hbad
      exact ⟨t, hexec, hcompletes.runState_ne_faulted (by rw [hs]; decide), hcompletes.fault_eq⟩

end Sys2Proof

namespace Sys2Proof

/-! ## What an instruction does not read (spec/10_state.md R13, spec/20_memory.md R34) -/

namespace Machine

/-- R122: whether an instruction faults, and with what, depends on its operands alone. -/
theorem exec_raise_or_completes (i : Instr) :
    (∃ f, ∀ s, exec i s = .next (s.raise f)) ∨ ∀ s, ∃ t, exec i s = .next t ∧ Completes s i t := by
  cases h : firstBadOperand i with
  | some r => exact .inl ⟨.invalidRegister r, fun s => exec_firstBadOperand s h⟩
  | none => exact .inr fun s => exists_completes s h

/-! ### A register that is not read -/

theorem State.setReg_setReg_same (s : State) (n : Fin Config.nRegs) (v w : Byte) :
    (s.setReg n v).setReg n w = s.setReg n w :=
  congrArg (fun x => { s with x := x }) (Vector.set_set v n.isLt)

theorem State.setReg_comm (s : State) {n k : Fin Config.nRegs} (v w : Byte) (h : n ≠ k) :
    (s.setReg n v).setReg k w = (s.setReg k w).setReg n v :=
  congrArg (fun x => { s with x := x }) (Vector.set_comm v w (Fin.val_ne_of_ne h))

theorem State.decSp_setReg_other (s : State) {n : Fin Config.nRegs} (v : Byte) (h : n ≠ Config.spIndex) :
    (s.setReg n v).decSp = s.decSp.setReg n v := by
  rw [State.decSp, State.sp_setReg_other s v h, State.setReg_comm s v _ h, ← State.decSp]

theorem State.incSp_setReg_other (s : State) {n : Fin Config.nRegs} (v : Byte) (h : n ≠ Config.spIndex) :
    (s.setReg n v).incSp = s.incSp.setReg n v := by
  rw [State.incSp, State.sp_setReg_other s v h, State.setReg_comm s v _ h, ← State.incSp]

/-- A write to register `k` hides a change of that register and commutes with a change of another. -/
theorem State.setReg_setReg_of_mem (s : State) (n k : Fin Config.nRegs) (v w : Byte) :
    (s.setReg n v).setReg k w =
      if n.val ∈ [(regOperand k).toNat] then s.setReg k w else (s.setReg k w).setReg n v := by
  rw [toNat_regOperand]
  split_ifs with h
  · obtain rfl := Fin.ext (List.mem_singleton.mp h)
    exact s.setReg_setReg_same n v w
  · exact s.setReg_comm v w (Fin.ne_of_val_ne fun he => h (List.mem_singleton.mpr he))

theorem State.reg_setReg_of_ne_operand (s : State) {n k : Fin Config.nRegs} (v : Byte)
    (h : n.val ≠ (regOperand k).toNat) : (s.setReg n v).reg k = s.reg k :=
  State.reg_setReg_other s n v (ne_of_val_ne_toNat_regOperand h).symm

/-- The result of MUL and ADD, where neither operand is the register changed. -/
theorem State.setReg_aluResult_comm (s : State) (op : AluOp) {n k l : Fin Config.nRegs} (v : Byte)
    (hk : n.val ≠ (regOperand k).toNat) (hl : n.val ≠ (regOperand l).toNat) :
    (s.setReg n v).setReg k (aluResult op ((s.setReg n v).reg k) ((s.setReg n v).reg l)) =
      (s.setReg k (aluResult op (s.reg k) (s.reg l))).setReg n v := by
  rw [s.reg_setReg_of_ne_operand v hk, s.reg_setReg_of_ne_operand v hl,
    s.setReg_comm v _ (ne_of_val_ne_toNat_regOperand hk)]

/-- R13: a register that an instruction does not read can be changed before it or, unless the instruction writes it,
after it. -/
theorem Completes.exec_setReg {i : Instr} {s t : State} {n : Fin Config.nRegs} (v : Byte) (h : Completes s i t)
    (hn : n.val ∉ registersRead i) :
    exec i (s.setReg n v) = .next (if n.val ∈ registersWritten i then t else t.setReg n v) := by
  cases h with
  | ldi k b =>
    rw [exec_ldi_regOperand, State.setReg_setReg_of_mem, registersWritten]
    split_ifs <;> rfl
  | prn k =>
    rw [exec_prn_regOperand, State.reg_setReg_of_ne_operand s v (List.ne_of_not_mem_cons hn)]
    rfl
  | mul k l =>
    obtain ⟨hk, hl⟩ := List.ne_and_not_mem_of_not_mem_cons hn
    rw [exec_mul_regOperand, s.setReg_aluResult_comm .mul v hk (List.ne_of_not_mem_cons hl), registersWritten,
      if_neg (List.mem_singleton.not.mpr hk)]
    rfl
  | add k l =>
    obtain ⟨hk, hl⟩ := List.ne_and_not_mem_of_not_mem_cons hn
    rw [exec_add_regOperand, s.setReg_aluResult_comm .add v hk (List.ne_of_not_mem_cons hl), registersWritten,
      if_neg (List.mem_singleton.not.mpr hk)]
    rfl
  | push k =>
    obtain ⟨h7, hk⟩ := List.ne_and_not_mem_of_not_mem_cons hn
    rw [exec_push_regOperand, s.decSp_setReg_other v (Fin.ne_of_val_ne h7),
      State.reg_setReg_of_ne_operand _ v (List.ne_of_not_mem_cons hk), s.sp_setReg_other v (Fin.ne_of_val_ne h7),
      registersWritten, if_neg (List.mem_singleton.not.mpr h7)]
    rfl
  | call k =>
    obtain ⟨h7, hk⟩ := List.ne_and_not_mem_of_not_mem_cons hn
    rw [exec_call_regOperand, s.decSp_setReg_other v (Fin.ne_of_val_ne h7),
      State.reg_setReg_of_ne_operand _ v (List.ne_of_not_mem_cons hk), s.sp_setReg_other v (Fin.ne_of_val_ne h7),
      registersWritten, if_neg (List.mem_singleton.not.mpr h7)]
    rfl
  | pop k =>
    have h7 := List.ne_of_not_mem_cons hn
    have hmem : n.val ∈ registersWritten (.pop (regOperand k)) ↔ n.val ∈ [(regOperand k).toNat] := by
      rw [registersWritten, List.mem_cons, List.mem_singleton, List.mem_singleton, or_iff_left h7]
    rw [exec_pop_regOperand, s.sp_setReg_other v (Fin.ne_of_val_ne h7), State.setReg_setReg_of_mem]
    simp only [hmem]
    split_ifs
    · rfl
    · rw [State.incSp_setReg_other _ v (Fin.ne_of_val_ne h7)]
      rfl
  | ret =>
    have h7 := List.ne_of_not_mem_cons hn
    rw [exec_ret, s.sp_setReg_other v (Fin.ne_of_val_ne h7), s.incSp_setReg_other v (Fin.ne_of_val_ne h7),
      registersWritten, if_neg (List.mem_singleton.not.mpr h7)]
    rfl
  | hlt =>
    rw [exec_hlt]
    rfl

/-! ### A memory cell that is not read -/

theorem State.mem_cellsRead_pc (s : State) : s.pc ∈ s.cellsRead := by
  simp [State.cellsRead]

theorem State.mem_cellsRead_operand {s : State} {d : Nat} (hlo : s.pc ≤ d)
    (hhi : d ≤ s.pc + (s.mem.read s.pc).toNat / 64) (hcount : (s.mem.read s.pc).toNat / 64 ≠ 3) :
    d ∈ s.cellsRead := by
  have hlt := (s.mem.read s.pc).isLt
  obtain rfl | ⟨rfl, h40, hC0⟩ | ⟨rfl, h80, hC0⟩ :
      d = s.pc ∨ (d = s.pc + 1 ∧ 0x40 ≤ (s.mem.read s.pc).toNat ∧ (s.mem.read s.pc).toNat < 0xC0) ∨
        (d = s.pc + 2 ∧ 0x80 ≤ (s.mem.read s.pc).toNat ∧ (s.mem.read s.pc).toNat < 0xC0) := by omega
  · exact s.mem_cellsRead_pc
  · simp [State.cellsRead, h40, hC0]
  · simp [State.cellsRead, h80, hC0]

theorem State.mem_cellsRead_sp {s : State} (h : s.mem.read s.pc = 0x46 ∨ s.mem.read s.pc = 0x11) :
    s.sp.toNat ∈ s.cellsRead :=
  List.mem_append_right _ (by rw [if_pos h]; exact List.mem_singleton_self _)

theorem State.fetchInstr_unknown (s : State) (hcount : operandCount (s.mem.read s.pc) ≠ 3)
    (hin : s.pc + operandCount (s.mem.read s.pc) ≤ 255) (hkind : kindOf (s.mem.read s.pc) = .unknown) :
    s.fetchInstr = .error (.unknownInstruction (s.mem.read s.pc)) := by
  rw [s.fetchInstr_inside hcount hin, hkind, Kind.build_unknown]

/-- R70 to R72: the fetch depends on no cell but the opcode and the operand bytes it asks for. -/
theorem State.fetchInstr_setMem {s : State} {m : Memory} (h : ∀ d ∈ s.cellsRead, m.read d = s.mem.read d) :
    (s.setMem m).fetchInstr = s.fetchInstr := by
  have hop : (s.setMem m).mem.read (s.setMem m).pc = s.mem.read s.pc := h _ s.mem_cellsRead_pc
  cases hf : s.fetchInstr with
  | ok i =>
    obtain ⟨hin, hbytes⟩ := State.fetchInstr_eq_ok.mp hf
    refine State.fetchInstr_eq_ok.mpr ⟨hin, (List.map_congr_left fun d hd => h d ?_).trans hbytes⟩
    have hwidth := State.instrWidth_of_fetchInstr hf
    have hle := instrWidth_le i
    obtain ⟨hlo, hhi⟩ : s.pc ≤ d ∧ d < s.pc + instrWidth i := List.mem_range'_1.mp hd
    exact State.mem_cellsRead_operand hlo (by omega) (by omega)
  | error f =>
    have hfetches := s.fetches
    rw [hf] at hfetches
    cases hfetches with
    | opcodeOutside hpc => exact State.fetchInstr_outside _ hpc
    | count3 hpc hcount => rw [← hop] at hcount ⊢; exact State.fetchInstr_count3 _ hpc hcount
    | operandOutside hpc hcount hout =>
      rw [← hop] at hcount hout
      exact State.fetchInstr_operand_outside _ hpc hcount hout
    | unknown hcount hin hkind =>
      rw [← hop] at hcount hin hkind ⊢
      exact State.fetchInstr_unknown _ hcount hin hkind

/-- R34: POP and RET load the cell SP addresses, which is then one of those read. -/
theorem State.mem_cellsRead_sp_of_fetched {s : State} {i : Instr} (hf : s.fetchInstr = .ok i)
    (hi : (∃ a, i = .pop a) ∨ i = .ret) : s.sp.toNat ∈ s.cellsRead := by
  obtain ⟨operands, henc⟩ := State.exists_encode_eq_of_fetchInstr hf
  obtain ⟨a, rfl⟩ | rfl := hi
  · exact State.mem_cellsRead_sp (.inl (List.cons.inj henc).1.symm)
  · exact State.mem_cellsRead_sp (.inr (List.cons.inj henc).1.symm)

theorem Memory.read_write_congr {m m' : Memory} (hm : m.wf = true) (hm' : m'.wf = true) (a : Nat) (v : Byte) {d : Nat}
    (h : m'.read d = m.read d) : (m'.write a v).read d = (m.write a v).read d := by
  rw [Memory.read_write _ _ _ hm, Memory.read_write _ _ _ hm', h]

/-- R34: from a memory that reads the same at SP, where that is loaded, an instruction has the same effect, and a
cell that read the same before reads the same after. -/
theorem Completes.exec_setMem {i : Instr} {s t : State} {m : Memory} (h : Completes s i t) (hs : s.mem.wf = true)
    (hm : m.wf = true) (hload : (∃ a, i = .pop a) ∨ i = .ret → m.read s.sp.toNat = s.mem.read s.sp.toNat) :
    ∃ m', exec i (s.setMem m) = .next (t.setMem m') ∧ ∀ d, m.read d = s.mem.read d → m'.read d = t.mem.read d := by
  cases h with
  | ldi n b => exact ⟨m, exec_ldi_regOperand n b _, fun _ hd => hd⟩
  | prn n => exact ⟨m, exec_prn_regOperand n _, fun _ hd => hd⟩
  | mul n k => exact ⟨m, exec_mul_regOperand n k _, fun _ hd => hd⟩
  | add n k => exact ⟨m, exec_add_regOperand n k _, fun _ hd => hd⟩
  | push n => exact ⟨_, exec_push_regOperand n _, fun _ hd => Memory.read_write_congr hs hm _ _ hd⟩
  | call n => exact ⟨_, exec_call_regOperand n _, fun _ hd => Memory.read_write_congr hs hm _ _ hd⟩
  | pop n =>
    refine ⟨m, ?_, fun _ hd => hd⟩
    rw [exec_pop_regOperand, ← hload (.inl ⟨_, rfl⟩)]
    rfl
  | ret =>
    refine ⟨m, ?_, fun _ hd => hd⟩
    rw [exec_ret, ← hload (.inr rfl)]
    rfl
  | hlt => exact ⟨m, exec_hlt _, fun _ hd => hd⟩

/-- R34: from a memory that reads the same at the cells a step reads, the step has the same effect. -/
theorem step_setMem {s t : State} {m : Memory} (hrun : s.runState = .running) (hs : s.mem.wf = true)
    (hm : m.wf = true) (h : ∀ d ∈ s.cellsRead, m.read d = s.mem.read d) (hstep : step s = .next t) :
    ∃ m', step (s.setMem m) = .next (t.setMem m') ∧ ∀ d, m.read d = s.mem.read d → m'.read d = t.mem.read d := by
  have hfetch' := State.fetchInstr_setMem h
  obtain ⟨hstopped, -⟩ | ⟨-, i, hfetch, hexec⟩ | ⟨-, f, hfetch, rfl⟩ := step_cases hstep
  · exact absurd hrun hstopped
  · rw [step_fetched (s := s.setMem m) hrun (hfetch'.trans hfetch)]
    obtain ⟨f, hraise⟩ | hcompletes := exec_raise_or_completes i
    · cases (hraise s).symm.trans hexec
      exact ⟨m, hraise _, fun _ hd => hd⟩
    · obtain ⟨t', hexec', hcompletes'⟩ := hcompletes s
      cases hexec.symm.trans hexec'
      exact hcompletes'.exec_setMem hs hm fun hi => h _ (State.mem_cellsRead_sp_of_fetched hfetch hi)
  · exact ⟨m, step_fetch_fault hrun (hfetch'.trans hfetch), fun _ hd => hd⟩

end Machine

open Machine in
/-- Settles O23. Whether the instruction faults does not depend on the registers; if it completes, changing the
register before it is changing it after it, or is hidden by the instruction's own write. -/
theorem registersOutsideTheReadTableDoNotMatter : Obligations.RegistersOutsideTheReadTableDoNotMatter := by
  intro i s t t' n v hn hs hexec hexec'
  obtain ⟨f, hraise⟩ | hcompletes := exec_raise_or_completes i
  · cases (hraise s).symm.trans hexec
    cases (hraise _).symm.trans hexec'
    exact ⟨rfl, rfl, rfl, rfl, rfl, fun k hk => State.reg_setReg_other s n v hk, fun _ hne => absurd rfl hne,
      fun _ => State.reg_setReg_same s n v⟩
  · obtain ⟨u, hu, hcompletes⟩ := hcompletes s
    cases hu.symm.trans hexec
    cases (hcompletes.exec_setReg v hn).symm.trans hexec'
    split_ifs with hwritten
    · exact ⟨rfl, rfl, rfl, rfl, rfl, fun _ _ => rfl, fun _ _ => rfl, fun h => absurd hwritten h⟩
    · exact ⟨rfl, rfl, rfl, rfl, rfl, fun k hk => State.reg_setReg_other t n v hk, fun h => absurd h hwritten,
        fun _ => State.reg_setReg_same t n v⟩

open Machine in
/-- Settles O43. The changed cell is none of those read, so the fetch and the loads of the two steps are the same. -/
theorem unreadCellsDoNotInfluenceAStep : Obligations.UnreadCellsDoNotInfluenceAStep := by
  intro s t t' c v hs hm hc hunread hstep hstep'
  have hread : ∀ d, d ≠ c → (s.mem.write c v).read d = s.mem.read d := fun d => Memory.read_write_other _ v
  obtain ⟨m', hnext, hm'⟩ := step_setMem hs hm (Memory.wf_write v (Nat.lt_succ_of_le hc) hm)
    (fun d hd => hread d fun heq => hunread (heq ▸ hd)) hstep
  cases hnext.symm.trans hstep'
  exact ⟨rfl, rfl, rfl, rfl, rfl, fun d hd => hm' d (hread d hd)⟩

end Sys2Proof

namespace Sys2Proof

/-! ## The seven blocks make the step (spec/10_state.md R27, spec/40_fetch_decode_execute.md R81) -/

namespace Machine.Blocks

/-! ### Fetch -/

/-- A read request at any address, in terms of the machine's own read. -/
theorem memoryAccess_read (s : State) (addr : Addr) :
    memoryAccess s { addr := addr } = (s.memRead addr.toNat).map fun v => (s, v) := by
  obtain h | h := le_or_gt addr.toNat 255
  · rw [memoryAccess_read_inside s h, s.memRead_inside h]
    rfl
  · rw [memoryAccess_outside s h, s.memRead_outside h]
    rfl

theorem toNat_pc {pc : Nat} (h : pc ≤ 256) : (BitVec.ofNat Config.addrWidth pc).toNat = pc :=
  Nat.mod_eq_of_lt (Nat.lt_of_le_of_lt h (by decide))

/-- R71: while 9 bits hold the addresses asked for, the operands latched are the bytes after `addr`. -/
theorem fetchOperands_eq (s : State) {addr : Addr} {n : Nat} (h : addr.toNat + n < 512) :
    fetchOperands s addr n = s.readBytes (addr.toNat + 1) n := by
  induction n generalizing addr with
  | zero => rfl
  | succ n ih =>
    have hnext : (addr + 1).toNat = addr.toNat + 1 := by
      rw [BitVec.toNat_add]
      exact Nat.mod_eq_of_lt (show addr.toNat + 1 < 512 by omega)
    rw [fetchOperands, State.readBytes, memoryAccess_read, hnext]
    cases s.memRead (addr.toNat + 1) with
    | error f => rfl
    | ok v =>
      rw [ok_bind, ← hnext, ← ih (by omega)]
      rfl

theorem toNat_instructionDecoder_nops (opcode : Byte) :
    (instructionDecoder opcode).nops.toNat = operandCount opcode := rfl

theorem instructionDecoder_kind (opcode : Byte) : (instructionDecoder opcode).kind = kindOf opcode := rfl

theorem instructionDecoder_nops_eq_three {opcode : Byte} :
    (instructionDecoder opcode).nops = 3 ↔ operandCount opcode = 3 :=
  BitVec.toNat_inj.symm

/-- R70 to R72: `fetch_unit` and the decoder find the machine's instruction or raise its fault. -/
theorem fetchAndDecode_of_fetches {s : State} {r : Except Fault Instr} (hpc : s.pc ≤ 256) (h : Fetches s r) :
    fetchAndDecode s (BitVec.ofNat Config.addrWidth s.pc) =
      r.map fun i => (i, instructionDecoder (s.mem.read s.pc)) := by
  have haddr := toNat_pc hpc
  have hle := operandCount_le (s.mem.read s.pc)
  rw [fetchAndDecode, memoryAccess_read, haddr]
  cases h with
  | opcodeOutside hout =>
    rw [s.memRead_outside hout]
    rfl
  | count3 hin hcount =>
    rw [s.memRead_inside hin]
    simp only [Except.map, ok_bind, instructionDecoder_nops_eq_three, hcount, if_true]
  | operandOutside hin hcount hout =>
    rw [s.memRead_inside hin]
    simp only [Except.map, ok_bind, instructionDecoder_nops_eq_three, hcount, if_false, toNat_instructionDecoder_nops]
    rw [fetchOperands_eq s (by omega), haddr, s.readBytes_outside (by omega) (by omega), error_bind]
  | unknown hcount hin hkind =>
    rw [s.memRead_inside (by omega)]
    simp only [Except.map, ok_bind, instructionDecoder_nops_eq_three, hcount, if_false, toNat_instructionDecoder_nops]
    rw [fetchOperands_eq s (by omega), haddr, s.readBytes_inside (by omega), ok_bind, instructionDecoder_kind, hkind,
      Kind.build_unknown]
  | @instr i hin hbytes =>
    have henc := State.map_read_eq_encode.mp hbytes
    have hwidth := instrWidth_of_encode henc
    have hwidth3 := instrWidth_le i
    have hcount3 : operandCount (s.mem.read s.pc) ≠ 3 := by omega
    rw [s.memRead_inside (by omega)]
    simp only [Except.map, ok_bind, instructionDecoder_nops_eq_three, hcount3, if_false, toNat_instructionDecoder_nops]
    rw [fetchOperands_eq s (by omega), haddr, s.readBytes_inside (by omega), ok_bind, instructionDecoder_kind,
      build_kindOf_eq_some.mpr henc]
    rfl

theorem fetchAndDecode_eq {s : State} (hpc : s.pc ≤ 256) :
    fetchAndDecode s (BitVec.ofNat Config.addrWidth s.pc) =
      s.fetchInstr.map fun i => (i, instructionDecoder (s.mem.read s.pc)) :=
  fetchAndDecode_of_fetches hpc s.fetches

/-! ### The events of an instruction -/

/-- spec/92_eei_decisions.md D5: the blocks raise `fault_invreg` for the first bad register operand. -/
theorem events_firstBadOperand {i : Instr} {r : Byte} (s : State) (pc : Addr) (d : DecoderOut)
    (h : firstBadOperand i = some r) : events s pc d i = .error (.invalidRegister r) := by
  cases i with
  | ldi a b =>
    obtain ⟨rfl, hbad⟩ := eq_of_find?_singleton h
    rw [events, registerAccess_write_invalid s b hbad, error_bind]
  | prn a | pop a =>
    obtain ⟨rfl, hbad⟩ := eq_of_find?_singleton h
    rw [events, registerAccess_read_invalid s hbad, error_bind]
  | mul a b | add a b =>
    obtain ⟨rfl, hbad⟩ | ⟨⟨n, rfl⟩, rfl, hbad⟩ := find?_pair_cases h
    · rw [events, aluEvents, registerAccess_readBoth_first_invalid s b hbad, error_bind, error_bind]
    · rw [events, aluEvents, registerAccess_readBoth_second_invalid s n hbad, error_bind, error_bind]
  | push a | call a =>
    obtain ⟨rfl, hbad⟩ := eq_of_find?_singleton h
    rw [events, pushEvents_invalid s _ pc hbad, error_bind]
  | ret | hlt => cases h

/-- What a step that began in `s` leaves, from the events of its instruction and the decoder's `halt` line. -/
def Effect.after (e : Effect) (s : State) (halt : Bool) : State :=
  withFetchState
    { e.state with
      pc := (programCounter (BitVec.ofNat Config.addrWidth s.pc) e.pcIn).toNat
      out := e.outPort.received s.out }
    (fetchUnit ⟨s.runState, s.fault⟩ none halt)

theorem fetchUnit_idle (q : FetchState) : fetchUnit q none false = q := by
  obtain ⟨runState, fault⟩ := q
  cases runState <;> rfl

/-- R76: an advance of `pc`, from events that touch registers, memory and the output port only. -/
theorem Effect.after_advance {s u : State} {n : BitVec 2} {p : OutPort} (hpc : s.pc ≤ 255)
    (hu : u = { s with x := u.x, mem := u.mem }) :
    Effect.after { state := u, pcIn := { advance := n }, outPort := p } s false =
      State.advance { u with out := p.received s.out } n.toNat := by
  rw [Effect.after, programCounter_advance hpc, fetchUnit_idle, hu]
  rfl

theorem Effect.after_load {s u : State} {b : Byte} (hu : u = { s with x := u.x, mem := u.mem }) :
    Effect.after { state := u, pcIn := { load := true, target := b } } s false = u.setPc b.toNat := by
  rw [Effect.after, programCounter_load, fetchUnit_idle, hu]
  rfl

/-- R115: HLT holds `pc`, and its `halt` line stops `fetch_unit`. -/
theorem Effect.after_halt {s : State} (hrun : s.runState = .running) (hpc : s.pc ≤ 255) :
    Effect.after { state := s, pcIn := { hold := true } } s true = s.halt := by
  rw [Effect.after, programCounter_hold, toNat_pc (hpc.trans (by decide)), hrun, fetchUnit_halt]
  rfl

theorem instructionDecoder_op_mul : (instructionDecoder 0xA2).op = 2#3 := rfl

theorem instructionDecoder_op_add : (instructionDecoder 0xA0).op = 0#3 := rfl

/-- R81: the events of an instruction that completes leave what the instruction does. -/
theorem events_of_completes {i : Instr} {s t : State} {opcode : Byte} {operands : List Byte} (h : Completes s i t)
    (hrun : s.runState = .running) (hpc : s.pc ≤ 255) (henc : encode i = opcode :: operands) :
    ∃ e, events s (BitVec.ofNat Config.addrWidth s.pc) (instructionDecoder opcode) i = .ok e ∧
      e.after s (instructionDecoder opcode).halt = t := by
  cases h with
  | ldi n b =>
    cases henc
    exact ⟨_, by rw [events, registerAccess_write]; rfl, Effect.after_advance hpc rfl⟩
  | prn n =>
    cases henc
    exact ⟨_, by rw [events, registerAccess_read]; rfl, Effect.after_advance hpc rfl⟩
  | mul n k =>
    cases henc
    exact ⟨_, by rw [events, instructionDecoder_op_mul, aluEvents_regOperand s watchAlu_mul]; rfl,
      Effect.after_advance hpc rfl⟩
  | add n k =>
    cases henc
    exact ⟨_, by rw [events, instructionDecoder_op_add, aluEvents_regOperand s watchAlu_add]; rfl,
      Effect.after_advance hpc rfl⟩
  | push n =>
    cases henc
    exact ⟨_, by rw [events, pushEvents_regOperand, setWidth_pushedRegister]; rfl, Effect.after_advance hpc rfl⟩
  | pop n =>
    cases henc
    exact ⟨_, by simp only [events, registerAccess_read, popData_eq, registerAccess_write, popSp_eq, ok_bind]; rfl,
      Effect.after_advance hpc rfl⟩
  | call n =>
    cases henc
    exact ⟨_, by rw [events, pushEvents_regOperand, setWidth_returnAddress]; rfl, Effect.after_load rfl⟩
  | ret =>
    cases henc
    exact ⟨_, by rw [events, popData_eq, ok_bind, popSp_eq]; rfl, Effect.after_load rfl⟩
  | hlt =>
    cases henc
    exact ⟨_, rfl, Effect.after_halt hrun hpc⟩

/-! ### The step -/

theorem blockStep_of_run {s t : State} {halt : Bool} (hrun : s.runState = .running)
    (h : runBlocks s = .ok (t, halt)) :
    blockStep s = withFetchState t (fetchUnit ⟨s.runState, s.fault⟩ none halt) := by
  simp only [blockStep, hrun, h]

/-- spec/60_exceptions.md R130: a fault line leaves every block but `fetch_unit` as it was. -/
theorem blockStep_of_fault {s : State} {f : Fault} (hrun : s.runState = .running) (h : runBlocks s = .error f) :
    blockStep s = s.raise f := by
  simp only [blockStep, hrun, h]
  rfl

theorem blockStep_of_events {s : State} {i : Instr} {e : Effect} (hrun : s.runState = .running) (hpc : s.pc ≤ 256)
    (hfetch : s.fetchInstr = .ok i)
    (he : events s (BitVec.ofNat Config.addrWidth s.pc) (instructionDecoder (s.mem.read s.pc)) i = .ok e) :
    blockStep s = e.after s (instructionDecoder (s.mem.read s.pc)).halt := by
  refine blockStep_of_run hrun ?_
  rw [runBlocks, fetchAndDecode_eq hpc, hfetch]
  simp only [Except.map, ok_bind, he]
  rfl

theorem runBlocks_fetch_fault {s : State} {f : Fault} (hpc : s.pc ≤ 256) (hfetch : s.fetchInstr = .error f) :
    runBlocks s = .error f := by
  rw [runBlocks, fetchAndDecode_eq hpc, hfetch]
  rfl

theorem runBlocks_firstBadOperand {s : State} {i : Instr} {r : Byte} (hpc : s.pc ≤ 256)
    (hfetch : s.fetchInstr = .ok i) (h : firstBadOperand i = some r) :
    runBlocks s = .error (.invalidRegister r) := by
  rw [runBlocks, fetchAndDecode_eq hpc, hfetch]
  simp only [Except.map, ok_bind, events_firstBadOperand s _ _ h, error_bind]

theorem blockStep_stopped {s : State} (hs : s.runState ≠ .running) : blockStep s = s := by
  rw [blockStep]
  cases h : s.runState with
  | running => exact absurd h hs
  | halted | faulted => rfl

end Machine.Blocks

open Machine Machine.Blocks in
/-- Settles O44. The blocks fetch the same instruction or raise the same fault line; of an instruction that is fetched
they raise the line of its first bad register operand, or their events leave what the instruction does. -/
theorem blocksTogetherMakeTheStep : Obligations.BlocksTogetherMakeTheStep := by
  intro s hpc
  by_cases hrun : s.runState = .running
  · cases hfetch : s.fetchInstr with
    | error f => rw [step_fetch_fault hrun hfetch, blockStep_of_fault hrun (runBlocks_fetch_fault hpc hfetch)]
    | ok i =>
      rw [step_fetched hrun hfetch]
      cases hbad : firstBadOperand i with
      | some r =>
        rw [exec_firstBadOperand s hbad, blockStep_of_fault hrun (runBlocks_firstBadOperand hpc hfetch hbad)]
      | none =>
        obtain ⟨t, hexec, hcompletes⟩ := exists_completes s hbad
        obtain ⟨operands, henc⟩ := State.exists_encode_eq_of_fetchInstr hfetch
        have hpc' : s.pc ≤ 255 := by
          have hin := (State.fetchInstr_eq_ok.mp hfetch).1
          have hwidth := instrWidth_pos i
          omega
        obtain ⟨e, hevents, hafter⟩ := events_of_completes hcompletes hrun hpc' henc
        rw [hexec, blockStep_of_events hrun hpc hfetch hevents, hafter]
  · rw [step_stopped hrun, blockStep_stopped hrun]

end Sys2Proof
